-- ==== Sys2Proof/Word.lean ====
section
/-! DEFINITION. The word types: a byte, a 32-bit instruction word (R70), a register-file index (R20), and the
list form in which a memory is held. -/

namespace Sys2Proof

/-- One byte of the instruction memory or of the data memory. -/
abbrev Byte := BitVec 8

/-- A 32-bit instruction word, the default `IW = 32` (R9, R70); also one register slot at the default `XLEN = 32` (R9). -/
abbrev Word := BitVec 32

/-- A register-file index, `0 .. NREGS-1` at the default `NREGS = 32` (R9, R20): what the five bits of a field `rs` or
`rt` name (R71). -/
abbrev RegIdx := Fin 32

end Sys2Proof
end

