-- ==== Sys2Proof/Config.lean ====
section
/-! DEFINITION. What is wired to the CORE from outside, and is not fixed by the spec: which decoder and handler table
is plugged in (R7, R9), and the external collaborators as constants without a body, so that nothing can be proved about
what they answer. DESIGN CHOICE (log entries 5 and 11). -/

namespace Sys2Proof

/-- Which decoder and opcode-handler table stands behind the parameters `decode`, `desc0` and `handler` of R9. -/
inductive HandlerTable where
  /-- The spec's reference fixture (44_reference_handlers.md, R190). -/
  | fixture
  /-- An arbitrary external decoder and handler table: `Config.extDecode` and `Config.extHandler`. -/
  | external
  deriving DecidableEq, Repr

/-- The inputs of an external handler (R127): the descriptor's 64 bits (log entry 23), the raw word, the two operand values, the
instruction's address, the committed register file, and the environment. -/
structure Config.HandlerInput where
  desc  : BitVec 64
  iw    : Word
  a     : Word
  b     : Word
  pc    : BitVec 12
  x     : Vector Word 32
  halt  : Bool
  imem  : List Host.Cell
  dmem  : List Host.Cell
  other : Nat
  deriving DecidableEq, Repr

/-- What an external handler does (R127): its `write`, its `redirect`, its fault if it raises one (`none` is the
outcome `ok`), and the updated environment. The two memories are updated by a list of byte writes, oldest first;
`other` is the new value of the rest of `Ext`. -/
structure Config.HandlerEffects where
  write      : Option (Nat × Word)
  redirect   : Option Nat
  fault      : Option Nat
  halt       : Bool
  imemWrites : List (BitVec 12 × Byte)
  dmemWrites : List (BitVec 12 × Byte)
  other      : Nat
  deriving DecidableEq, Repr, Inhabited

/-- FREE VALUE. The external decoder (R73, R111): total, a function of the word alone. The 64 bits stand for the
descriptor's operation identity and static attributes; that there are 64 is a DESIGN CHOICE (log entry 23), for the spec
leaves the type of descriptors open (D6). -/
opaque Config.extDecode : Word → BitVec 64

/-- FREE VALUE. The external opcode-handler table (R127): a total function of the contract's inputs. -/
opaque Config.extHandler : Config.HandlerInput → Config.HandlerEffects

end Sys2Proof
end

