-- ==== Sys2Proof/Syntax.lean ====
section
/-! DEFINITION. The opcode descriptors (R73, R191) and the instructions: one constructor of `Instr` per row of
spec/opcode_table.json. -/

namespace Sys2Proof

/-- An opcode descriptor (R27, R73): the fixture's twelve (R191), the fixture's `desc0`, named `ZERO` (R205), and
the descriptors of an external decoder, held as their bits. The external `desc0` is the all-zero one (R75).
DESIGN CHOICE (log entry 23): the spec leaves an external table's type of descriptors open (D6: any finite type), and
the machine holds such a descriptor in 64 bits. -/
inductive Descriptor where
  | zero
  | sll
  | brk
  | addu
  | subu
  | or
  | j
  | beq
  | bne
  | addiu
  | lw
  | sw
  | illegal
  | external (bits : BitVec 64)
  deriving DecidableEq, Repr

/-- The instructions, in the order of the opcode table. A field the fixture ignores (bits 25:21 of `sll`, bits 10:6 of
`addu`, `subu` and `or`) is an operand too, so that no bit of a word is lost (log entry 13). -/
inductive Instr where
  /-- DISPATCH (R76, R120): any word under any descriptor. It is how a descriptor without a row of its own runs: the
  reset descriptor `ZERO` (R205) and every descriptor of an external decoder. -/
  | dispatch (desc : Descriptor) (iw : Word)
  /-- `sll rd, rt, sa` (R193); `rs` is ignored. -/
  | sll (rs rt rd : RegIdx) (sa : BitVec 5)
  /-- `break` (R203), with its 20-bit code. -/
  | brk (code : BitVec 20)
  /-- `addu rd, rs, rt` (R194); `sa` is ignored. -/
  | addu (rs rt rd : RegIdx) (sa : BitVec 5)
  /-- `subu rd, rs, rt` (R195); `sa` is ignored. -/
  | subu (rs rt rd : RegIdx) (sa : BitVec 5)
  /-- `or rd, rs, rt` (R196); `sa` is ignored. -/
  | or (rs rt rd : RegIdx) (sa : BitVec 5)
  /-- `j target` (R202). -/
  | j (target : BitVec 26)
  /-- `beq rs, rt, off` (R200). -/
  | beq (rs rt : RegIdx) (imm : BitVec 16)
  /-- `bne rs, rt, off` (R201). -/
  | bne (rs rt : RegIdx) (imm : BitVec 16)
  /-- `addiu rt, rs, imm` (R197). -/
  | addiu (rs rt : RegIdx) (imm : BitVec 16)
  /-- `lw rt, imm(rs)` (R198). -/
  | lw (rs rt : RegIdx) (imm : BitVec 16)
  /-- `sw rt, imm(rs)` (R199). -/
  | sw (rs rt : RegIdx) (imm : BitVec 16)
  /-- ILLEGAL (R204): a word that matches no other row of the fixture. -/
  | illegal (iw : Word)
  deriving DecidableEq, Repr

end Sys2Proof
end

