-- ==== Sys2Proof/Decode.lean ====
section
/-! DEFINITION. The word's fields (R71, R190), the fixture decoder (R191), the instruction a descriptor and a word
stand for, the decoder over bytes, and the encoder. -/

namespace Sys2Proof

/-! The fields of a word (R71 for `rs` and `rt`, R190 for the rest). -/

/-- `op = iw[31:26]`. -/
def opOf (w : Word) : BitVec 6 := w.extractLsb' 26 6
/-- `rs = iw[25:21]` (R71, R122). -/
def rsOf (w : Word) : RegIdx := (w.extractLsb' 21 5).toFin
/-- `rt = iw[20:16]` (R71, R122). -/
def rtOf (w : Word) : RegIdx := (w.extractLsb' 16 5).toFin
/-- `rd = iw[15:11]`. -/
def rdOf (w : Word) : RegIdx := (w.extractLsb' 11 5).toFin
/-- `sa = iw[10:6]`. -/
def saOf (w : Word) : BitVec 5 := w.extractLsb' 6 5
/-- `funct = iw[5:0]`. -/
def functOf (w : Word) : BitVec 6 := w.extractLsb' 0 6
/-- `imm = iw[15:0]`. -/
def immOf (w : Word) : BitVec 16 := w.extractLsb' 0 16
/-- `target = iw[25:0]`. -/
def targetOf (w : Word) : BitVec 26 := w.extractLsb' 0 26
/-- The code field of `break`, `iw[25:6]` (R203). -/
def codeOf (w : Word) : BitVec 20 := w.extractLsb' 6 20

/-- The fixture decoder's choice among the words with `op = 0` (R191). -/
def specialDescriptor (funct : BitVec 6) : Descriptor :=
  if funct = 0x00 then .sll
  else if funct = 0x0D then .brk
  else if funct = 0x21 then .addu
  else if funct = 0x23 then .subu
  else if funct = 0x25 then .or
  else .illegal

/-- The fixture decoder (R191): total, and `ILLEGAL` for every word its table does not list. It never answers
`ZERO`. -/
def fixtureDescriptor (w : Word) : Descriptor :=
  if opOf w = 0x00 then specialDescriptor (functOf w)
  else if opOf w = 0x02 then .j
  else if opOf w = 0x04 then .beq
  else if opOf w = 0x05 then .bne
  else if opOf w = 0x09 then .addiu
  else if opOf w = 0x23 then .lw
  else if opOf w = 0x2B then .sw
  else .illegal

/-- The parameter `decode` of R9 for the table that is plugged in: what RD calls (R110). -/
def descriptorFor (t : HandlerTable) (w : Word) : Descriptor :=
  match t with
  | .fixture => fixtureDescriptor w
  | .external => .external (Config.extDecode w)

/-- The parameter `desc0` of R9 (R75): `ZERO` in the fixture (R191), the all-zero descriptor otherwise. -/
def resetDescriptor (t : HandlerTable) : Descriptor :=
  match t with
  | .fixture => .zero
  | .external => .external 0

/-- The instruction that a descriptor and the word kept beside it in `DL` stand for: the handler is chosen by the
descriptor alone, and the fields come from the word (R120, R127). -/
def instrOf (d : Descriptor) (w : Word) : Instr :=
  match d with
  | .zero => .dispatch .zero w
  | .sll => .sll (rsOf w) (rtOf w) (rdOf w) (saOf w)
  | .brk => .brk (codeOf w)
  | .addu => .addu (rsOf w) (rtOf w) (rdOf w) (saOf w)
  | .subu => .subu (rsOf w) (rtOf w) (rdOf w) (saOf w)
  | .or => .or (rsOf w) (rtOf w) (rdOf w) (saOf w)
  | .j => .j (targetOf w)
  | .beq => .beq (rsOf w) (rtOf w) (immOf w)
  | .bne => .bne (rsOf w) (rtOf w) (immOf w)
  | .addiu => .addiu (rsOf w) (rtOf w) (immOf w)
  | .lw => .lw (rsOf w) (rtOf w) (immOf w)
  | .sw => .sw (rsOf w) (rtOf w) (immOf w)
  | .illegal => .illegal w
  | .external b => .dispatch (.external b) w

/-- The instruction the fixture reads in a word (R191). -/
def decode (w : Word) : Instr := instrOf (fixtureDescriptor w) w

/-- Why the byte decoder answers no instruction: every 32-bit word has one (R73), so only bytes can be missing. -/
inductive DecodeError where
  /-- Fewer than the four bytes of a word (R70). -/
  | truncated
  deriving DecidableEq, Repr

/-- Decode the first word of a byte sequence, most significant byte first (R52), and answer the bytes that follow. -/
def decodeBytes (bs : List Byte) : Except DecodeError (Instr × List Byte) :=
  match bs with
  | b0 :: b1 :: b2 :: b3 :: rest => .ok (decode (b0 ++ b1 ++ b2 ++ b3), rest)
  | _ => .error .truncated

/-- The descriptor an instruction is dispatched by (R127). -/
def descriptorOf (i : Instr) : Descriptor :=
  match i with
  | .dispatch d _ => d
  | .sll _ _ _ _ => .sll
  | .brk _ => .brk
  | .addu _ _ _ _ => .addu
  | .subu _ _ _ _ => .subu
  | .or _ _ _ _ => .or
  | .j _ => .j
  | .beq _ _ _ => .beq
  | .bne _ _ _ => .bne
  | .addiu _ _ _ => .addiu
  | .lw _ _ _ => .lw
  | .sw _ _ _ => .sw
  | .illegal _ => .illegal

/-- The five bits of a field that names a register-file slot (R71). -/
def regField (i : RegIdx) : BitVec 5 := BitVec.ofFin i

/-- An R-type word (R190): `op`, `rs`, `rt`, `rd`, `sa`, `funct`, from the most significant bit down. -/
def encodeR (op : BitVec 6) (rs rt rd : RegIdx) (sa : BitVec 5) (funct : BitVec 6) : Word :=
  op ++ regField rs ++ regField rt ++ regField rd ++ sa ++ funct

/-- An I-type word (R190): `op`, `rs`, `rt`, `imm`. -/
def encodeI (op : BitVec 6) (rs rt : RegIdx) (imm : BitVec 16) : Word :=
  op ++ regField rs ++ regField rt ++ imm

/-- The word of an instruction, from the encodings of R193 to R204. -/
def encode (i : Instr) : Word :=
  match i with
  | .dispatch _ w => w
  | .sll rs rt rd sa => encodeR 0x00 rs rt rd sa 0x00
  | .brk code => (0x00 : BitVec 6) ++ code ++ (0x0D : BitVec 6)
  | .addu rs rt rd sa => encodeR 0x00 rs rt rd sa 0x21
  | .subu rs rt rd sa => encodeR 0x00 rs rt rd sa 0x23
  | .or rs rt rd sa => encodeR 0x00 rs rt rd sa 0x25
  | .j target => (0x02 : BitVec 6) ++ target
  | .beq rs rt imm => encodeI 0x04 rs rt imm
  | .bne rs rt imm => encodeI 0x05 rs rt imm
  | .addiu rs rt imm => encodeI 0x09 rs rt imm
  | .lw rs rt imm => encodeI 0x23 rs rt imm
  | .sw rs rt imm => encodeI 0x2B rs rt imm
  | .illegal w => w

/-- The four bytes of a word as the instruction memory stores it, most significant byte at the lowest address
(R52). -/
def wordBytes (w : Word) : List Byte :=
  [w.extractLsb' 24 8, w.extractLsb' 16 8, w.extractLsb' 8 8, w.extractLsb' 0 8]

/-- The bytes of an instruction as the instruction memory stores them. -/
def encodeBytes (i : Instr) : List Byte := wordBytes (encode i)

/-- The word a row of the opcode table numbers: bit 0 is the word's least significant bit, and every bit above
`nbits` is 0. -/
def tableWord (nbits w : Nat) : Word := BitVec.ofNat 32 (w % 2 ^ nbits)

/-- The instruction the decoder reads from a word numbered as the opcode table numbers it; none for more than the
32 bits of a word (R70). -/
def decodeTableWord (nbits w : Nat) : Option Instr :=
  if nbits ≤ 32 then
    match decodeBytes (wordBytes (tableWord nbits w)) with
    | .ok (i, _) => some i
    | .error _ => none
  else none

end Sys2Proof
end

