-- ==== Sys2Proof/Machine/State.lean ====
section
/-! DEFINITION. The state of the CORE and of the environment it is connected to (R41), the reasons a step stops, and
the state after reset (R44). The latches and the CORE's state are stated for every `NREGS`, `XLEN`, `IW`
and `PCW` (R9); the machine's own state is the default instance, 32, 32, 32 and 12 (log entry 7). -/

namespace Sys2Proof.Machine

/-- A byte-addressed memory: (address, byte) pairs in a canonical form (`Mem.wf`). -/
abbrev Mem := List Host.Cell

/-- The register file (R20): `NREGS` slots of `XLEN` bits. -/
abbrev RegFile (nregs xlen : Nat) := Vector (BitVec xlen) nregs

/-- The common metadata of every latch (R25): the originating program counter. -/
structure Common (pcw : Nat) where
  pc : BitVec pcw
  deriving DecidableEq, Repr

/-- The Fetch-output latch `FL` (R26): the fetched word, its address, and the next fetch address. -/
structure FetchLatch (iw pcw : Nat) where
  common : Common pcw
  pc     : BitVec pcw
  iw     : BitVec iw
  deriving DecidableEq, Repr

/-- The Decode-output latch `DL` (R27). -/
structure DecodeLatch (iw pcw : Nat) (Desc : Type) where
  common : Common pcw
  desc   : Desc
  iw     : BitVec iw
  deriving DecidableEq, Repr

/-- The Execute-output latch `EL` (R28). -/
structure ExecLatch (nregs xlen pcw : Nat) where
  common : Common pcw
  dest   : Fin nregs
  result : BitVec xlen
  deriving DecidableEq, Repr

/-- The Memory-output latch `ML` (R29). -/
structure MemLatch (nregs xlen pcw : Nat) where
  common : Common pcw
  dest   : Fin nregs
  result : BitVec xlen
  deriving DecidableEq, Repr

/-- The CORE's own state (R41): the register file and the four latches. -/
structure CoreState (nregs xlen iw pcw : Nat) (Desc : Type) where
  x  : RegFile nregs xlen
  fl : FetchLatch iw pcw
  dl : DecodeLatch iw pcw Desc
  el : ExecLatch nregs xlen pcw
  ml : MemLatch nregs xlen pcw
  deriving DecidableEq, Repr

/-- The environment (R41): the halt bit (R33), the instruction-memory window (R51) and the external state `Ext`
(R50). -/
structure Env (Ext : Type) where
  halt : Bool
  imem : Mem
  ext  : Ext
  deriving DecidableEq, Repr

/-- The external state `Ext` of the machine: the data memory (R50, R190), and everything else an external handler
keeps, the rest of the status/control register file among it (R35), as one uninterpreted number (log entry 4). -/
structure ExtState where
  dmem  : Mem
  other : Nat
  deriving DecidableEq, Repr

/-- The machine's whole state: the CORE and its environment at the default instance of R9, the decoder and handler
table that is plugged in (R7), and the reset input `rst` (R42). -/
structure State where
  core  : CoreState 32 32 32 12 Descriptor
  env   : Env ExtState
  table : HandlerTable
  rst   : Bool
  deriving DecidableEq, Repr

/-- The reason an opcode handler gives with `outcome = fault(reason)` (R127, R222). -/
inductive HandlerFault where
  /-- Raised by the fixture's `lw` and `sw` on an address that is not a multiple of 4 (R192, R198, R199). Safe. -/
  | fixtureMisaligned
  /-- Raised by an external handler, with the reason's code (R222). Safe. -/
  | external (code : Nat)
  deriving DecidableEq, Repr

/-- Why EX stops the call (R223, R224), before it is joined with the state it stops in. -/
inductive StopReason where
  /-- The handler's own fault (R223). Safe. -/
  | handler (r : HandlerFault)
  /-- The handler named a destination at or above `NREGS` (R224). Safe. -/
  | destOutOfRange (dest : Nat)
  deriving DecidableEq, Repr

/-- A fault: the machine stops, and no step follows (R223). Each fault keeps the state in which the call stopped:
WB, DF and EX up to the handler's outcome have run, RD and IF have not. -/
inductive Fault where
  /-- Raised by EX when the handler it dispatched answers `fault(reason)` (R223). Safe: the hardware's own mechanism
  is outside the spec, and nothing is claimed about what follows. -/
  | handler (r : HandlerFault) (stopped : State)
  /-- Raised by EX when a handler names a destination at or above `NREGS` (R129, R224). Safe. -/
  | destOutOfRange (dest : Nat) (stopped : State)
  deriving DecidableEq, Repr

/-- A refusal: the model has no meaning for the call. -/
inductive Refusal where
  /-- An instruction without a meaning; no arm of `exec` answers it. Safe. -/
  | notModelled (mnemonic : String)
  /-- Raised by `step` on a running call whose state is not valid (R178, R225). Safe. -/
  | invalidState
  deriving DecidableEq, Repr

/-- The machine right after reset (R44, R250): the four latches zero-filled with `desc0` of the fixture in `DL`, and
`x[0] = 0`. The values the spec leaves open are DESIGN CHOICE: the other registers 0 (log entry 1), halt clear
(log entry 2), memories with nothing listed (log entry 3), `other` 0 (log entry 4), the fixture plugged in
(log entry 5), `rst` deasserted (log entry 6). -/
def State.reset : State where
  core :=
    { x  := Vector.replicate 32 0
      fl := { common := ⟨0⟩, pc := 0, iw := 0 }
      dl := { common := ⟨0⟩, desc := .zero, iw := 0 }
      el := { common := ⟨0⟩, dest := 0, result := 0 }
      ml := { common := ⟨0⟩, dest := 0, result := 0 } }
  env := { halt := false, imem := [], ext := { dmem := [], other := 0 } }
  table := .fixture
  rst := false

end Sys2Proof.Machine
end

