-- ==== Sys2Proof/Machine/Flags.lean ====
section
/-! DEFINITION. The CORE has no status flag, condition code or predicate, and no instruction sets one (R34). The one
control bit is `halt`, a bit of the external status register (R33). -/

namespace Sys2Proof.Machine

/-- The environment with the halt bit at a given value: what `break` does with 1 (R203), and what the host does
between calls (R43, R237). -/
def setHaltBit {Ext : Type} (e : Env Ext) (v : Bool) : Env Ext := { e with halt := v }

end Sys2Proof.Machine
end

