-- ==== Sys2Proof/Machine/Memory.lean ====
section
/-! DEFINITION. Operations on a memory: one byte, and the big-endian word of four bytes (R52, R192). -/

namespace Sys2Proof.Machine

/-- What an address with no entry reads as: 0. DESIGN CHOICE (log entry 3): the spec gives neither memory's initial
contents. -/
def Mem.unlisted : Byte := 0

/-- The byte at an address. -/
def Mem.read (m : Mem) (a : Nat) : Byte :=
  match m with
  | [] => Mem.unlisted
  | (k, v) :: rest => if k = a then v else Mem.read rest a

/-- The memory with a byte put in front of entries at higher addresses; a byte equal to `Mem.unlisted` has no
entry. -/
def Mem.cons (a : Nat) (v : Byte) (m : Mem) : Mem :=
  if v = Mem.unlisted then m else (a, v) :: m

/-- The memory with one byte written, in the canonical form. -/
def Mem.write (m : Mem) (a : Nat) (v : Byte) : Mem :=
  match m with
  | [] => Mem.cons a v []
  | (k, w) :: rest =>
    if a < k then Mem.cons a v ((k, w) :: rest)
    else if a = k then Mem.cons a v rest
    else (k, w) :: Mem.write rest a v

/-- The canonical form from an address on: addresses strictly rising, all in `lo .. size - 1`, and no entry equal to
what an unlisted address reads as. -/
def Mem.wfFrom (lo size : Nat) (m : Mem) : Bool :=
  match m with
  | [] => true
  | (k, v) :: rest =>
    decide (lo ≤ k) && decide (k < size) && decide (v ≠ Mem.unlisted) && Mem.wfFrom (k + 1) size rest

/-- The canonical form of a memory of `size` bytes at `0 .. size - 1`. -/
def Mem.wf (size : Nat) (m : Mem) : Bool := Mem.wfFrom 0 size m

/-- The four bytes at `a, a+1, a+2, a+3` as one word, the byte at the lowest address in bits 31:24: `IMemRead32` of
R52, and the fixture's data word (R192). -/
def readWord (m : Mem) (a : Nat) : Word :=
  m.read a ++ m.read (a + 1) ++ m.read (a + 2) ++ m.read (a + 3)

/-- The instruction word of `IW` bits that IF reads (R52, R100): the four bytes at the address, as `IMemRead32` puts them
together. At `IW = 32`, the source's width (R9, R70), it is that word itself. At another width, for which the spec has no
words, it is the word cut to `IW` bits or extended with zeros: DESIGN CHOICE (log entry 24). -/
def fetchWord (iw : Nat) (imem : Mem) (a : Nat) : BitVec iw := (readWord imem a).setWidth iw

/-- A word written to the four bytes at `a, a+1, a+2, a+3`, bits 31:24 at the lowest address (R192). -/
def writeWord (m : Mem) (a : Nat) (v : Word) : Mem :=
  (((m.write a (v.extractLsb' 24 8)).write (a + 1) (v.extractLsb' 16 8)).write (a + 2)
    (v.extractLsb' 8 8)).write (a + 3) (v.extractLsb' 0 8)

/-- A list of byte writes, the oldest first. -/
def writeBytes (m : Mem) (ws : List (BitVec 12 × Byte)) : Mem :=
  match ws with
  | [] => m
  | (a, v) :: rest => writeBytes (m.write a.toNat v) rest

end Sys2Proof.Machine
end

