-- ==== Sys2Proof/Machine/Operands.lean ====
section
/-! DEFINITION. Register-file accesses (R20, R21), the forwarding install and restore with the forwarding
multiplexer (R123 to R126, R130), fetch addresses (R101, R131), and the fixture's operand forms (R190, R192). -/

namespace Sys2Proof.Machine

variable {nregs xlen pcw : Nat}

/-- `x[i]` (R11). -/
def readReg (x : RegFile nregs xlen) (i : Fin nregs) : BitVec xlen := x[i.val]'i.isLt

/-- `x[i] <- v` (R11), without the re-zeroing of slot 0. -/
def writeReg (x : RegFile nregs xlen) (i : Fin nregs) (v : BitVec xlen) : RegFile nregs xlen := x.set i.val v i.isLt

/-- The pending Writeback result put in its slot, and slot 0 forced back to zero (R123, R124). WB makes its durable
commit by the same two writes (R160). -/
def installPending [NeZero nregs] (x : RegFile nregs xlen) (dest : Fin nregs) (result : BitVec xlen) :
    RegFile nregs xlen :=
  writeReg (writeReg x dest result) 0 0

/-- The installed slot put back to the value it held before the install (R126). -/
def restorePending (installed x : RegFile nregs xlen) (dest : Fin nregs) : RegFile nregs xlen :=
  writeReg installed dest (readReg x dest)

/-- The forwarding multiplexer with the writeback hazard detector (R130): slot 0 is zero, a source equal to the
pending destination takes the pending result, and any other source is read from the committed file. -/
def readOperand [NeZero nregs] (x : RegFile nregs xlen) (ml : MemLatch nregs xlen pcw) (i : Fin nregs) : BitVec xlen :=
  if i = 0 then 0 else if i = ml.dest then ml.result else readReg x i

/-- `PC_MASK = IMEM_SIZE - 4` (R9), where `IMEM_SIZE = 2 ^ PCW`. -/
def pcMask (pcw : Nat) : BitVec pcw := BitVec.ofNat pcw (2 ^ pcw - 4)

/-- The next fetch address, `(a + 4) & PC_MASK` (R101). -/
def nextPc (a : BitVec pcw) : BitVec pcw := (a + BitVec.ofNat pcw 4) &&& pcMask pcw

/-- A redirect's target in the window, `t & PC_MASK` (R131). -/
def maskTarget (pcw : Nat) (t : Nat) : BitVec pcw := BitVec.ofNat pcw t &&& pcMask pcw

/-! The fixture's operand forms. -/

/-- `a + sext_32(imm)` modulo `2^32`: the sum of `addiu`, and the address of `lw` and `sw` (R197 to R199). -/
def addImm (a : Word) (imm : BitVec 16) : Word := a + imm.signExtend 32

/-- The address is a multiple of 4: `addr[1:0] = 0` (R192). -/
def wordAligned (addr : Word) : Bool := decide (addr.extractLsb' 0 2 = 0)

/-- The data-memory byte address `addr & 0xFFF` (R192). -/
def dmemAddr (addr : Word) : Nat := (addr &&& 0xFFF).toNat

/-- A branch target, `pc + 4 + (sext_32(imm) << 2)` modulo `2^32` (R200, R201; log entry 19). -/
def branchTarget (pc : BitVec 12) (imm : BitVec 16) : Nat :=
  (pc.setWidth 32 + 4 + (imm.signExtend 32 <<< 2)).toNat

/-- A jump target, `target << 2` (R202). -/
def jumpTarget (target : BitVec 26) : Nat := (target.setWidth 32 <<< 2).toNat

end Sys2Proof.Machine
end

