-- ==== Sys2Proof/Machine/Ops.lean ====
section
/-! DEFINITION. The Execute stage (R120) over an arbitrary handler: the handler contract (R127), the operand reads
with forwarding, how the handler's outputs are applied (R128 to R132), and how a handler's fault ends the call (R223,
R224). The CORE has no trap entry and no return from one (R229), so a fault is the only thing an exception can be
here. -/

namespace Sys2Proof.Machine

variable {nregs xlen iw pcw : Nat} {Desc Ext : Type}

/-- The inputs of a handler beside the descriptor and the word (R127): the two operands, the instruction's address,
the committed register file, and the environment. -/
structure HandlerIn (nregs xlen pcw : Nat) (Ext : Type) where
  a   : BitVec xlen
  b   : BitVec xlen
  pc  : BitVec pcw
  x   : RegFile nregs xlen
  env : Env Ext
  deriving DecidableEq, Repr

/-- The outputs of a handler (R127). `fault` is the outcome: `none` for `ok`. -/
structure HandlerOut (xlen : Nat) (Ext : Type) where
  write    : Option (Nat × BitVec xlen)
  redirect : Option Nat
  env      : Env Ext
  fault    : Option HandlerFault
  deriving DecidableEq, Repr

/-- A handler, once the descriptor and the word are given to it (R127): a total function. -/
abbrev Handler (nregs xlen pcw : Nat) (Ext : Type) := HandlerIn nregs xlen pcw Ext → HandlerOut xlen Ext

/-! The outputs the fixture's handlers give (44_reference_handlers.md §2): `redirect = none`, `env` unchanged and
`outcome = ok` unless the handler says otherwise. -/

/-- No output at all but an unchanged environment. -/
def HandlerIn.nothing (inp : HandlerIn nregs xlen pcw Ext) : HandlerOut xlen Ext :=
  { write := none, redirect := none, env := inp.env, fault := none }

/-- `write <- some(d, v)`. -/
def HandlerIn.writing (inp : HandlerIn nregs xlen pcw Ext) (d : Fin nregs) (v : BitVec xlen) : HandlerOut xlen Ext :=
  { write := some (d.val, v), redirect := none, env := inp.env, fault := none }

/-- `redirect <- some(t)`. -/
def HandlerIn.redirecting (inp : HandlerIn nregs xlen pcw Ext) (t : Nat) : HandlerOut xlen Ext :=
  { write := none, redirect := some t, env := inp.env, fault := none }

/-- `env <- e`. -/
def updating (e : Env Ext) : HandlerOut xlen Ext :=
  { write := none, redirect := none, env := e, fault := none }

/-- `outcome <- fault(r)`. -/
def HandlerIn.faulting (inp : HandlerIn nregs xlen pcw Ext) (r : HandlerFault) : HandlerOut xlen Ext :=
  { write := none, redirect := none, env := inp.env, fault := some r }

/-- What EX answers: the CORE and the environment after it, or the reason it stops with the two as they stand
then. -/
inductive ExResult (nregs xlen iw pcw : Nat) (Desc Ext : Type) where
  | done (c : CoreState nregs xlen iw pcw Desc) (e : Env Ext)
  | stop (r : StopReason) (c : CoreState nregs xlen iw pcw Desc) (e : Env Ext)
  deriving DecidableEq, Repr

/-- `out.redirect` applied to `FL.pc` (R131). -/
def applyRedirect (r : Option Nat) (c : CoreState nregs xlen iw pcw Desc) : CoreState nregs xlen iw pcw Desc :=
  match r with
  | none => c
  | some t => { c with fl := { c.fl with pc := maskTarget pcw t } }

/-- The handler's outputs applied (R120 after step 6): the outcome is looked at first (R228), then the write (R129),
then the redirect (R131), then the environment (R132). Whatever stops the call leaves the rest unapplied. -/
def applyOutputs (out : HandlerOut xlen Ext) (c : CoreState nregs xlen iw pcw Desc) (e : Env Ext) :
    ExResult nregs xlen iw pcw Desc Ext :=
  match out.fault with
  | some r => .stop (.handler r) c e
  | none =>
    match out.write with
    | none => .done (applyRedirect out.redirect c) out.env
    | some (d, v) =>
      if hd : d < nregs then
        .done (applyRedirect out.redirect { c with el := { c.el with dest := ⟨d, hd⟩, result := v } }) out.env
      else .stop (.destOutOfRange d) c e

/-- The CORE when the handler is called (R120 steps 1 to 5): the common metadata copied (R121), the register file
after the install and the restore (R123 to R126), and `EL.dest` at its default 0 with `EL.result` kept (R128). -/
def beforeHandler [NeZero nregs] (c : CoreState nregs xlen iw pcw Desc) : CoreState nregs xlen iw pcw Desc :=
  { c with
    x := restorePending (installPending c.x c.ml.dest c.ml.result) c.x c.ml.dest
    el := { common := c.dl.common, dest := 0, result := c.el.result } }

/-- The inputs EX gives the handler (R125, R127): the operands are read from the register file with the pending
result installed, and the handler's own view of the file is the one after the restore. -/
def handlerInput [NeZero nregs] (rs rt : Fin nregs) (c : CoreState nregs xlen iw pcw Desc) (e : Env Ext) :
    HandlerIn nregs xlen pcw Ext :=
  { a   := readReg (installPending c.x c.ml.dest c.ml.result) rs
    b   := readReg (installPending c.x c.ml.dest c.ml.result) rt
    pc  := c.dl.common.pc
    x   := (beforeHandler c).x
    env := e }

/-- EX (R120), for the source indices `rs` and `rt` and the handler that the descriptor selects. -/
def executeStage [NeZero nregs] (rs rt : Fin nregs) (h : Handler nregs xlen pcw Ext)
    (c : CoreState nregs xlen iw pcw Desc) (e : Env Ext) : ExResult nregs xlen iw pcw Desc Ext :=
  applyOutputs (h (handlerInput rs rt c e)) (beforeHandler c) e

/-! The machine's instance. -/

/-- A handler at the default instance (R9). -/
abbrev MachineHandler := Handler 32 32 12 ExtState

/-- The inputs of a handler at the default instance. -/
abbrev Input := HandlerIn 32 32 12 ExtState

/-- The outputs of a handler at the default instance. -/
abbrev Output := HandlerOut 32 ExtState

/-- The state with another CORE and environment; the plugged-in table and `rst` stay. -/
def State.put (s : State) (c : CoreState 32 32 32 12 Descriptor) (e : Env ExtState) : State :=
  { s with core := c, env := e }

/-- What EX answers, as an outcome of the machine: a stop becomes the fault of that reason (R223, R224). -/
def State.finish (s : State) (r : ExResult 32 32 32 12 Descriptor ExtState) : Host.Outcome State Fault Refusal :=
  match r with
  | .done c e => .next (s.put c e)
  | .stop (.handler f) c e => .fault (.handler f (s.put c e))
  | .stop (.destOutOfRange d) c e => .fault (.destOutOfRange d (s.put c e))

/-- Every instruction's meaning is this operation over its own handler: EX reads `x[rs]` and `x[rt]`, calls the
handler once, and applies its outputs (R120, R127). -/
def runHandler (rs rt : RegIdx) (h : MachineHandler) (s : State) : Host.Outcome State Fault Refusal :=
  s.finish (executeStage rs rt h s.core s.env)

/-! What an instruction reads and what it leaves in `EL`, and updates of single components: the terms in which the
instructions' effects are stated. -/

/-- The operand with source index `i` as EX reads it in this state (R130). -/
def State.operand (s : State) (i : RegIdx) : Word := readOperand s.core.x s.core.ml i

/-- `EL` after an instruction that writes nothing (R121, R128): the address of the instruction, destination 0, and the
stale result. -/
def State.bubbleEl (s : State) : ExecLatch 32 32 12 :=
  { common := s.core.dl.common, dest := 0, result := s.core.el.result }

/-- `EL` after an instruction that writes `v` to `d` (R121, R129). -/
def State.resultEl (s : State) (d : RegIdx) (v : Word) : ExecLatch 32 32 12 :=
  { common := s.core.dl.common, dest := d, result := v }

/-- The state with another Execute-output latch. -/
def State.setEl (s : State) (l : ExecLatch 32 32 12) : State := { s with core := { s.core with el := l } }

/-- The state with another next fetch address. -/
def State.setFlPc (s : State) (p : BitVec 12) : State :=
  { s with core := { s.core with fl := { s.core.fl with pc := p } } }

/-- The state with another halt bit. -/
def State.setHalt (s : State) (v : Bool) : State := { s with env := setHaltBit s.env v }

/-- The state with another data memory. -/
def State.setDmem (s : State) (m : Mem) : State :=
  { s with env := { s.env with ext := { s.env.ext with dmem := m } } }

/-- The state with another instruction memory. -/
def State.setImem (s : State) (m : Mem) : State := { s with env := { s.env with imem := m } }

end Sys2Proof.Machine
end

