-- ==== Sys2Proof/Machine/Alu.lean ====
section
/-! DEFINITION. The fixture's register instructions: `sll`, `addu`, `subu`, `or`, `addiu` (R193 to R197). -/

namespace Sys2Proof.Machine

/-- The handler of `sll` (R193): `write <- some(rd, (b << sa) mod 2^32)`. -/
def handleSll (rd : RegIdx) (sa : BitVec 5) (inp : Input) : Output := inp.writing rd (inp.b <<< sa.toNat)

/-- The handler of `addu` (R194): `write <- some(rd, (a + b) mod 2^32)`. -/
def handleAddu (rd : RegIdx) (inp : Input) : Output := inp.writing rd (inp.a + inp.b)

/-- The handler of `subu` (R195): `write <- some(rd, (a - b) mod 2^32)`. -/
def handleSubu (rd : RegIdx) (inp : Input) : Output := inp.writing rd (inp.a - inp.b)

/-- The handler of `or` (R196): `write <- some(rd, a | b)`. -/
def handleOr (rd : RegIdx) (inp : Input) : Output := inp.writing rd (inp.a ||| inp.b)

/-- The handler of `addiu` (R197): `write <- some(rt, (a + sext_32(imm)) mod 2^32)`. -/
def handleAddiu (rt : RegIdx) (imm : BitVec 16) (inp : Input) : Output := inp.writing rt (addImm inp.a imm)

/-- EX of `sll rd, rt, sa` (R193); `sa` is the shift's amount, and `rs` is read and ignored. -/
def execSll (rs rt rd : RegIdx) (sa : BitVec 5) (s : State) : Host.Outcome State Fault Refusal :=
  runHandler rs rt (handleSll rd sa) s

/-- EX of `addu rd, rs, rt` (R194). -/
def execAddu (rs rt rd : RegIdx) (_sa : BitVec 5) (s : State) : Host.Outcome State Fault Refusal :=
  runHandler rs rt (handleAddu rd) s

/-- EX of `subu rd, rs, rt` (R195). -/
def execSubu (rs rt rd : RegIdx) (_sa : BitVec 5) (s : State) : Host.Outcome State Fault Refusal :=
  runHandler rs rt (handleSubu rd) s

/-- EX of `or rd, rs, rt` (R196). -/
def execOr (rs rt rd : RegIdx) (_sa : BitVec 5) (s : State) : Host.Outcome State Fault Refusal :=
  runHandler rs rt (handleOr rd) s

/-- EX of `addiu rt, rs, imm` (R197). -/
def execAddiu (rs rt : RegIdx) (imm : BitVec 16) (s : State) : Host.Outcome State Fault Refusal :=
  runHandler rs rt (handleAddiu rt imm) s

end Sys2Proof.Machine
end

