-- ==== Sys2Proof/Machine/Control.lean ====
section
/-! DEFINITION. The fixture's control transfers: `j`, `beq`, `bne` (R200 to R202). Each redirects the fetch address
(R131) and writes no register; the one delay slot follows from the stage order (R259). -/

namespace Sys2Proof.Machine

/-- The handler of `j` (R202). -/
def handleJ (target : BitVec 26) (inp : Input) : Output := inp.redirecting (jumpTarget target)

/-- The handler of `beq` (R200). -/
def handleBeq (imm : BitVec 16) (inp : Input) : Output :=
  if inp.a = inp.b then inp.redirecting (branchTarget inp.pc imm) else inp.nothing

/-- The handler of `bne` (R201). -/
def handleBne (imm : BitVec 16) (inp : Input) : Output :=
  if inp.a ≠ inp.b then inp.redirecting (branchTarget inp.pc imm) else inp.nothing

/-- EX of `j target` (R202). The two source fields, read whatever the instruction is (R122), are bits 25:16 of the
target. -/
def execJ (target : BitVec 26) (s : State) : Host.Outcome State Fault Refusal :=
  runHandler (target.extractLsb' 21 5).toFin (target.extractLsb' 16 5).toFin (handleJ target) s

/-- EX of `beq rs, rt, off` (R200). -/
def execBeq (rs rt : RegIdx) (imm : BitVec 16) (s : State) : Host.Outcome State Fault Refusal :=
  runHandler rs rt (handleBeq imm) s

/-- EX of `bne rs, rt, off` (R201). -/
def execBne (rs rt : RegIdx) (imm : BitVec 16) (s : State) : Host.Outcome State Fault Refusal :=
  runHandler rs rt (handleBne imm) s

end Sys2Proof.Machine
end

