-- ==== Sys2Proof/Machine/LoadStore.lean ====
section
/-! DEFINITION. The fixture's data accesses: `lw` and `sw` (R192, R198, R199). Both act at EX (R132). -/

namespace Sys2Proof.Machine

/-- `dload(addr)` (R192): the big-endian word at `addr & 0xFFF`. -/
def dload (e : Env ExtState) (addr : Word) : Word := readWord e.ext.dmem (dmemAddr addr)

/-- `dstore(addr, v)` (R192): the environment with the big-endian word written at `addr & 0xFFF`. -/
def dstore (e : Env ExtState) (addr v : Word) : Env ExtState :=
  { e with ext := { e.ext with dmem := writeWord e.ext.dmem (dmemAddr addr) v } }

/-- The handler of `lw` (R198). -/
def handleLw (rt : RegIdx) (imm : BitVec 16) (inp : Input) : Output :=
  if wordAligned (addImm inp.a imm) then inp.writing rt (dload inp.env (addImm inp.a imm))
  else inp.faulting .fixtureMisaligned

/-- The handler of `sw` (R199). It writes no register. -/
def handleSw (imm : BitVec 16) (inp : Input) : Output :=
  if wordAligned (addImm inp.a imm) then updating (dstore inp.env (addImm inp.a imm) inp.b)
  else inp.faulting .fixtureMisaligned

/-- EX of `lw rt, imm(rs)` (R198). -/
def execLw (rs rt : RegIdx) (imm : BitVec 16) (s : State) : Host.Outcome State Fault Refusal :=
  runHandler rs rt (handleLw rt imm) s

/-- EX of `sw rt, imm(rs)` (R199). -/
def execSw (rs rt : RegIdx) (imm : BitVec 16) (s : State) : Host.Outcome State Fault Refusal :=
  runHandler rs rt (handleSw imm) s

end Sys2Proof.Machine
end

