-- ==== Sys2Proof/Machine/System.lean ====
section
/-! DEFINITION. `break`, `ILLEGAL` and `ZERO` (R203 to R205), the external handler table (R127), and DISPATCH, the
CORE's one opcode-map entry (R76, R120). -/

namespace Sys2Proof.Machine

/-- The handler of `break` (R203): `env.halt <- 1`. -/
def handleBreak (inp : Input) : Output := updating (setHaltBit inp.env true)

/-- The handler of `ILLEGAL` (R204): no effect. -/
def handleIllegal (inp : Input) : Output := inp.nothing

/-- The handler of `ZERO` (R205): no effect. -/
def handleZero (inp : Input) : Output := inp.nothing

/-- The inputs of R127 as an external handler receives them. -/
def externalInput (bits : BitVec 64) (w : Word) (inp : Input) : Config.HandlerInput :=
  { desc := bits, iw := w, a := inp.a, b := inp.b, pc := inp.pc, x := inp.x
    halt := inp.env.halt, imem := inp.env.imem, dmem := inp.env.ext.dmem, other := inp.env.ext.other }

/-- The environment after an external handler's effects (R132): its writes to the instruction memory and the data
memory, its halt bit, and the rest of `Ext`. -/
def externalEnv (e : Env ExtState) (f : Config.HandlerEffects) : Env ExtState :=
  { halt := f.halt
    imem := writeBytes e.imem f.imemWrites
    ext := { dmem := writeBytes e.ext.dmem f.dmemWrites, other := f.other } }

/-- The handler of an external descriptor (R127): whatever the external table answers, a FREE VALUE. -/
def handleExternal (bits : BitVec 64) (w : Word) (inp : Input) : Output :=
  let f := Config.extHandler (externalInput bits w inp)
  { write := f.write, redirect := f.redirect, env := externalEnv inp.env f, fault := f.fault.map .external }

/-- The opcode-handler table (R127): the handler a descriptor selects, with the word it receives. -/
def handlerFor (d : Descriptor) (w : Word) : MachineHandler :=
  match d with
  | .zero => handleZero
  | .sll => handleSll (rdOf w) (saOf w)
  | .brk => handleBreak
  | .addu => handleAddu (rdOf w)
  | .subu => handleSubu (rdOf w)
  | .or => handleOr (rdOf w)
  | .j => handleJ (targetOf w)
  | .beq => handleBeq (immOf w)
  | .bne => handleBne (immOf w)
  | .addiu => handleAddiu (rtOf w) (immOf w)
  | .lw => handleLw (rtOf w) (immOf w)
  | .sw => handleSw (immOf w)
  | .illegal => handleIllegal
  | .external b => handleExternal b w

/-- EX of `break` (R203). The two source fields are the code's bits 19:10. -/
def execBreak (code : BitVec 20) (s : State) : Host.Outcome State Fault Refusal :=
  runHandler (code.extractLsb' 15 5).toFin (code.extractLsb' 10 5).toFin handleBreak s

/-- EX of a word the fixture's decoder calls `ILLEGAL` (R204): dispatched like any other (R74). -/
def execIllegal (w : Word) (s : State) : Host.Outcome State Fault Refusal :=
  runHandler (rsOf w) (rtOf w) handleIllegal s

/-- EX of any word under any descriptor (DISPATCH, R76 and R120): the fields `rs` and `rt` of the word are read
through the forwarding multiplexer, and the handler of the descriptor is called. -/
def execDispatch (d : Descriptor) (w : Word) (s : State) : Host.Outcome State Fault Refusal :=
  runHandler (rsOf w) (rtOf w) (handlerFor d w) s

end Sys2Proof.Machine
end

