-- ==== Sys2Proof/Machine/Dispatch.lean ====
section
/-! DEFINITION. EX of each instruction: one arm per constructor. -/

namespace Sys2Proof.Machine

def exec (i : Instr) (s : State) : Host.Outcome State Fault Refusal :=
  match i with
  | .dispatch d w => Sys2Proof.Machine.execDispatch d w s
  | .sll rs rt rd sa => Sys2Proof.Machine.execSll rs rt rd sa s
  | .brk code => Sys2Proof.Machine.execBreak code s
  | .addu rs rt rd sa => Sys2Proof.Machine.execAddu rs rt rd sa s
  | .subu rs rt rd sa => Sys2Proof.Machine.execSubu rs rt rd sa s
  | .or rs rt rd sa => Sys2Proof.Machine.execOr rs rt rd sa s
  | .j target => Sys2Proof.Machine.execJ target s
  | .beq rs rt imm => Sys2Proof.Machine.execBeq rs rt imm s
  | .bne rs rt imm => Sys2Proof.Machine.execBne rs rt imm s
  | .addiu rs rt imm => Sys2Proof.Machine.execAddiu rs rt imm s
  | .lw rs rt imm => Sys2Proof.Machine.execLw rs rt imm s
  | .sw rs rt imm => Sys2Proof.Machine.execSw rs rt imm s
  | .illegal w => Sys2Proof.Machine.execIllegal w s

end Sys2Proof.Machine
end

