-- ==== Sys2Proof/Machine/Stages.lean ====
section
/-! DEFINITION. The stages around EX, WB, DF, RD and IF (R100, R110, R150, R160), the reset operation (R180), and which
states are valid (R178). -/

namespace Sys2Proof.Machine

variable {nregs xlen iw pcw : Nat} {Desc Ext : Type}

/-- WB (R160): `x[ML.dest] <- ML.result`, then `x[0] <- 0`. -/
def writeback [NeZero nregs] (c : CoreState nregs xlen iw pcw Desc) : CoreState nregs xlen iw pcw Desc :=
  { c with x := installPending c.x c.ml.dest c.ml.result }

/-- DF (R150): `ML` is `EL`, unchanged. -/
def dataFetch (c : CoreState nregs xlen iw pcw Desc) : CoreState nregs xlen iw pcw Desc :=
  { c with ml := { common := c.el.common, dest := c.el.dest, result := c.el.result } }

/-- RD (R110), for the external decoder. -/
def registerFetch (decoder : BitVec iw → Desc) (c : CoreState nregs xlen iw pcw Desc) : CoreState nregs xlen iw pcw Desc :=
  { c with dl := { common := c.fl.common, desc := decoder c.fl.iw, iw := c.fl.iw } }

/-- IF (R100), from the instruction memory. -/
def instructionFetch (imem : Mem) (c : CoreState nregs xlen iw pcw Desc) : CoreState nregs xlen iw pcw Desc :=
  { c with fl := { common := ⟨c.fl.pc⟩, pc := nextPc c.fl.pc, iw := fetchWord iw imem c.fl.pc.toNat } }

/-- `initialize-pipeline` (R180): the latches zero-filled; the register file is untouched. -/
def initializePipeline [NeZero nregs] (desc0 : Desc) (c : CoreState nregs xlen iw pcw Desc) : CoreState nregs xlen iw pcw Desc :=
  { c with
    fl := { common := ⟨0⟩, pc := 0, iw := 0 }
    dl := { common := ⟨0⟩, desc := desc0, iw := 0 }
    el := { common := ⟨0⟩, dest := 0, result := 0 }
    ml := { common := ⟨0⟩, dest := 0, result := 0 } }

/-- A valid state (R178): `FL.pc` is a multiple of 4 and `x[0] = 0`. That `FL.pc` is below `IMEM_SIZE` and that
`EL.dest` and `ML.dest` are below `NREGS` holds by their widths (log entry 18). -/
def CoreState.valid [NeZero nregs] (c : CoreState nregs xlen iw pcw Desc) : Bool :=
  decide (c.fl.pc.toNat % 4 = 0) && decide (readReg c.x 0 = 0)

end Sys2Proof.Machine
end

