-- ==== Sys2Proof/Machine/Cycle.lean ====
section
/-! DEFINITION. A running cycle of the machine (R170, R172) around the instruction in EX, the reset edge (R42, R180), and
how an instruction is placed for the next step. -/

namespace Sys2Proof.Machine

/-- The instruction that the next running cycle executes: the one in `DL` (R103, R120). -/
def State.current (s : State) : Instr := instrOf s.core.dl.desc s.core.dl.iw

/-- The stages before EX: WB, then DF (R172). -/
def beforeExecute (s : State) : State := { s with core := dataFetch (writeback s.core) }

/-- The stages after EX: RD with the plugged-in decoder, then IF, which sees the cycle's redirect and its writes to the
instruction memory (R59, R172). -/
def afterExecute (s : State) : State :=
  { s with core := instructionFetch s.env.imem (registerFetch (descriptorFor s.table) s.core) }

/-- A running cycle: WB, DF, EX, RD, IF (R170). A fault or refusal of EX ends the call before RD and IF (R223). -/
def runCycle (s : State) : Host.Outcome State Fault Refusal :=
  match exec s.current (beforeExecute s) with
  | .next t => .next (afterExecute t)
  | .fault f => .fault f
  | .refused r => .refused r

/-- An edge with `rst` asserted: `initialize-pipeline` and nothing else (R42, R180). -/
def resetEdge (s : State) : State := { s with core := initializePipeline (resetDescriptor s.table) s.core }

/-- The state with a word, and the plugged-in decoder's descriptor of it, in `DL`, where the next running cycle's EX
takes its instruction, and with `halt` and `rst` clear, so that this cycle runs (log entry 8). -/
def State.placeWord (s : State) (w : Word) : State :=
  { s with
    core := { s.core with dl := { s.core.dl with desc := descriptorFor s.table w, iw := w } }
    env := setHaltBit s.env false
    rst := false }

end Sys2Proof.Machine
end

