-- ==== Sys2Proof/Machine/Step.lean ====
section
/-! DEFINITION. One step: one active edge of `clk` (R42), that is one `advance-one-cycle` (R170), or one
`initialize-pipeline` while `rst` is asserted (R180). -/

namespace Sys2Proof.Machine

/-- One active clock edge. The halt test comes before everything else in a call (R228), so a halted call changes nothing
on an invalid state too (log entry 10). -/
def step (s : State) : Host.Outcome State Fault Refusal :=
  if s.rst then .next (resetEdge s)
  else if s.env.halt then .next s
  else if s.core.valid then runCycle s
  else .refused .invalidState

/-- The state with the instruction whose word the opcode table numbers as `w` placed so that the very next step runs
it. -/
def State.withFetchWord (s : State) (nbits w : Nat) : State := s.placeWord (tableWord nbits w)

end Sys2Proof.Machine
end

