-- ==== Sys2Proof/Machine/Clock.lean ====
section
/-! DEFINITION. `advance-one-cycle` as R170 writes it, for every row of R9's table: `NREGS` (of at least one slot, for
slot 0 is hardwired), `XLEN`, `IW`, window size, source fields, descriptor type, decoder, handler table and external
state. The machine's own step runs the same stages with its instructions' meanings as EX. -/

namespace Sys2Proof.Machine

variable {nregs xlen iw pcw : Nat} {Desc Ext : Type}

/-- What one call answers: the CORE and the environment after it, a fault with the two as they stand then (R223), or
the refusal `InvalidState` (R225). -/
inductive CycleResult (nregs xlen iw pcw : Nat) (Desc Ext : Type) where
  | ok (c : CoreState nregs xlen iw pcw Desc) (e : Env Ext)
  | fault (r : StopReason) (c : CoreState nregs xlen iw pcw Desc) (e : Env Ext)
  | invalidState
  deriving DecidableEq, Repr

/-- `advance-one-cycle` (R170): the halt test, then WB, DF, EX, RD and IF once each, in that order. EX dispatches
whatever descriptor stands in `DL`, with the fields of the word beside it (R76, R122). `rsField` and `rtField` are the
positions of the two source indices (R9 rows RS_FIELD and RT_FIELD). -/
def advanceOneCycle [NeZero nregs] (rsField rtField : BitVec iw → Fin nregs) (decoder : BitVec iw → Desc)
    (handler : Desc → BitVec iw → Handler nregs xlen pcw Ext)
    (c : CoreState nregs xlen iw pcw Desc) (e : Env Ext) : CycleResult nregs xlen iw pcw Desc Ext :=
  if e.halt then .ok c e
  else if c.valid then
    match executeStage (rsField c.dl.iw) (rtField c.dl.iw) (handler c.dl.desc c.dl.iw)
        (dataFetch (writeback c)) e with
    | .stop r c' e' => .fault r c' e'
    | .done c' e' => .ok (instructionFetch e'.imem (registerFetch decoder c')) e'
  else .invalidState

end Sys2Proof.Machine
end

