-- ==== Sys2Proof/Machine/HostPort.lean ====
section
/-! DEFINITION. What the embedding system does between calls (R43, R61): the inspection path, its writes to the halt
bit, the reset input, the instruction memory and `Ext`, and the boot procedure (R254). None of it writes the register
file or a latch except through `initialize-pipeline` (R36). These are operations beside `step`, not steps
(log entry 16). -/

namespace Sys2Proof.Machine

/-- The inspection path of a register slot, `dbg_*` (R43). -/
def inspectReg (s : State) (i : RegIdx) : Word := readReg s.core.x i

/-- The inspection path of the four latches and the register file, `dbg_*` (R43). -/
def inspectCore (s : State) : CoreState 32 32 32 12 Descriptor := s.core

/-- The word on `dec_iw` (R42) when RD runs in this state, and the descriptor the decoder answers on `dec_desc`. -/
def decoderPort (s : State) : Word × Descriptor := (s.core.fl.iw, descriptorFor s.table s.core.fl.iw)

/-- The address IF puts on `imem_addr` (R42) when it runs in this state: `FL.pc`. -/
def imemAddr (s : State) : BitVec 12 := s.core.fl.pc

/-- The word on `imem_data` (R42) for that address. -/
def imemData (s : State) : Word := readWord s.env.imem (imemAddr s).toNat

/-- What EX drives on `hdl_*` (R42, R127) in the next running call: the descriptor, the word, and the handler's other
inputs. -/
def handlerPort (s : State) : Descriptor × Word × Input :=
  let c := (beforeExecute s).core
  (c.dl.desc, c.dl.iw, handlerInput (rsOf c.dl.iw) (rtOf c.dl.iw) c s.env)

/-- The embedding system sets or clears the reset input (R42). -/
def hostSetReset (s : State) (v : Bool) : State := { s with rst := v }

/-- The embedding system sets or clears the halt bit (R173, R237). -/
def hostSetHalt (s : State) (v : Bool) : State := s.setHalt v

/-- The embedding system writes one byte of the instruction memory (R61). -/
def hostWriteImem (s : State) (a : BitVec 12) (v : Byte) : State := s.setImem (s.env.imem.write a.toNat v)

/-- The embedding system writes one byte of the data memory (R61). -/
def hostWriteDmem (s : State) (a : BitVec 12) (v : Byte) : State := s.setDmem (s.env.ext.dmem.write a.toNat v)

/-- The embedding system sets the rest of `Ext` (R61). -/
def hostSetOther (s : State) (n : Nat) : State :=
  { s with env := { s.env with ext := { s.env.ext with other := n } } }

/-- A program's words written to the instruction memory from an address on, wrapping in the window (R51, R254). -/
def loadWords (m : Mem) (a : BitVec 12) (ws : List Word) : Mem :=
  match ws with
  | [] => m
  | w :: rest => loadWords (writeWord m a.toNat w) (nextPc a) rest

/-- The boot procedure (R254): halt set, `initialize-pipeline`, the program loaded from address 0 and the data memory
written, and halt cleared last. -/
def boot (s : State) (program : List Word) (data : List (BitVec 12 × Byte)) : State :=
  let s1 := resetEdge (s.setHalt true)
  let s2 := s1.setImem (loadWords s1.env.imem 0 program)
  let s3 := s2.setDmem (writeBytes s2.env.ext.dmem data)
  s3.setHalt false

end Sys2Proof.Machine
end

