-- ==== Sys2Proof/Safety.lean ====
section
/-! DEFINITION. What the claims mean by a good state, a running state, and by the groups of instructions whose frames are
stated together. -/

namespace Sys2Proof

/-- The fixture's descriptors: all but an external decoder's. -/
def Descriptor.ofFixture (d : Descriptor) : Bool :=
  match d with
  | .external _ => false
  | .zero | .sll | .brk | .addu | .subu | .or | .j | .beq | .bne | .addiu | .lw | .sw | .illegal => true

/-- The instructions whose handler may redirect the fetch address (R200 to R202, and any external one). -/
def Descriptor.mayRedirect (d : Descriptor) : Bool :=
  match d with
  | .j | .beq | .bne | .external _ => true
  | .zero | .sll | .brk | .addu | .subu | .or | .addiu | .lw | .sw | .illegal => false

/-- The instructions whose handler writes a register (R193 to R198, and any external one). -/
def Descriptor.mayWrite (d : Descriptor) : Bool :=
  match d with
  | .sll | .addu | .subu | .or | .addiu | .lw | .external _ => true
  | .zero | .brk | .j | .beq | .bne | .sw | .illegal => false

end Sys2Proof

namespace Sys2Proof.Machine

/-- `x[0] = 0` (R24). -/
def State.ZeroReg (s : State) : Prop := readReg s.core.x 0 = 0

/-- The CORE's invariant (R24, R31, R37, R178) with the canonical form of the two 4096-byte memories (R51, R190). -/
def State.Inv (s : State) : Prop :=
  s.core.fl.pc.toNat % 4 = 0 ∧ s.ZeroReg ∧ s.env.imem.wf 4096 = true ∧ s.env.ext.dmem.wf 4096 = true

/-- A state whose next step is a running call: `rst` and `halt` clear, and a valid state (R170, R178). -/
def State.Running (s : State) : Prop :=
  s.rst = false ∧ s.env.halt = false ∧ s.core.fl.pc.toNat % 4 = 0 ∧ s.ZeroReg

/-- `DL` holds the plugged-in decoder's answer for its word, or the reset descriptor beside the zero word (R75, R110,
R180). -/
def State.Decoded (s : State) : Prop :=
  s.core.dl.desc = descriptorFor s.table s.core.dl.iw ∨
    (s.core.dl.desc = resetDescriptor s.table ∧ s.core.dl.iw = 0)

end Sys2Proof.Machine
end

