-- ==== Sys2Proof/WellFormed.lean ====
section
/-! DEFINITION. Which instructions are well formed. Every operand field admits all of its values, so only the two
constructors that hold a whole word are checked. -/

namespace Sys2Proof

/-- A descriptor has no row of its own in the opcode table: `ZERO` (R205) and every external one (R76). -/
def Descriptor.rowless (d : Descriptor) : Bool :=
  match d with
  | .zero => true
  | .external _ => true
  | .sll | .brk | .addu | .subu | .or | .j | .beq | .bne | .addiu | .lw | .sw | .illegal => false

/-- An instruction is well formed when the machine's decoders can answer it: DISPATCH stands only for a descriptor
without a row of its own (R75, R76), and an `ILLEGAL` word matches no other row of the fixture (R191, R204). -/
def Instr.wellFormed (i : Instr) : Bool :=
  match i with
  | .dispatch d _ => d.rowless
  | .illegal w => decide (fixtureDescriptor w = .illegal)
  | .sll _ _ _ _ | .brk _ | .addu _ _ _ _ | .subu _ _ _ _ | .or _ _ _ _ | .j _ | .beq _ _ _ | .bne _ _ _
  | .addiu _ _ _ | .lw _ _ _ | .sw _ _ _ => true

/-- The instruction has a row of the fixture (R191): every constructor but DISPATCH. -/
def Instr.hasFixtureRow (i : Instr) : Bool := !(descriptorOf i).rowless

end Sys2Proof
end

