-- ==== Sys2Proof/Certificates/Slice0/Obligations.lean ====
section
/-! DEFINITION. The statements for the provers, from the numbered rules of spec/. A state `s` given to `exec` is one in
which WB and DF of the cycle have run (R120); `s.operand i` is the operand EX reads (R130), `s.bubbleEl` and
`s.resultEl d v` are `EL` after an instruction that writes nothing and after one that writes `v` to `d`. -/

open Sys2Proof Sys2Proof.Machine

/-! ## Encoding -/

/-- R191: the fixture decoder's table, row by row, and what it says of `ZERO`, `desc0` and `nop`. -/
def Obligations.FixtureDecoderFollowsItsTable : Prop :=
  ∀ w : Word,
    (fixtureDescriptor w = .sll ↔ w.extractLsb 31 26 = 0x00#6 ∧ w.extractLsb 5 0 = 0x00#6) ∧
    (fixtureDescriptor w = .brk ↔ w.extractLsb 31 26 = 0x00#6 ∧ w.extractLsb 5 0 = 0x0D#6) ∧
    (fixtureDescriptor w = .addu ↔ w.extractLsb 31 26 = 0x00#6 ∧ w.extractLsb 5 0 = 0x21#6) ∧
    (fixtureDescriptor w = .subu ↔ w.extractLsb 31 26 = 0x00#6 ∧ w.extractLsb 5 0 = 0x23#6) ∧
    (fixtureDescriptor w = .or ↔ w.extractLsb 31 26 = 0x00#6 ∧ w.extractLsb 5 0 = 0x25#6) ∧
    (fixtureDescriptor w = .j ↔ w.extractLsb 31 26 = 0x02#6) ∧
    (fixtureDescriptor w = .beq ↔ w.extractLsb 31 26 = 0x04#6) ∧
    (fixtureDescriptor w = .bne ↔ w.extractLsb 31 26 = 0x05#6) ∧
    (fixtureDescriptor w = .addiu ↔ w.extractLsb 31 26 = 0x09#6) ∧
    (fixtureDescriptor w = .lw ↔ w.extractLsb 31 26 = 0x23#6) ∧
    (fixtureDescriptor w = .sw ↔ w.extractLsb 31 26 = 0x2B#6) ∧
    (fixtureDescriptor w = .illegal ↔
      (w.extractLsb 31 26 ∉ [0x00#6, 0x02#6, 0x04#6, 0x05#6, 0x09#6, 0x23#6, 0x2B#6] ∨
        w.extractLsb 31 26 = 0x00#6 ∧ w.extractLsb 5 0 ∉ [0x00#6, 0x0D#6, 0x21#6, 0x23#6, 0x25#6])) ∧
    fixtureDescriptor w ≠ .zero ∧
    resetDescriptor .fixture = .zero ∧
    decode 0x00000000#32 = .sll 0 0 0 0

/-- Words written out from the encodings of R193 to R204 decode to the instructions they stand for. -/
def Obligations.SpecWordsDecode : Prop :=
  decode 0b00000000000000100010100100000000#32 = .sll 0 2 5 4 ∧
  decode 0b00000000000000000000000000001101#32 = .brk 0 ∧
  decode 0b00000000001000100001100000100001#32 = .addu 1 2 3 0 ∧
  decode 0b00000000001000100010000000100011#32 = .subu 1 2 4 0 ∧
  decode 0b00000000001000100011000000100101#32 = .or 1 2 6 0 ∧
  decode 0b00001000000000000000000000010000#32 = .j 0x10 ∧
  decode 0b00010000000000001111111111111111#32 = .beq 0 0 0xFFFF ∧
  decode 0b00010100001000001111111111111101#32 = .bne 1 0 0xFFFD ∧
  decode 0b00100100001000011111111111111111#32 = .addiu 1 1 0xFFFF ∧
  decode 0b10001100000001000000000000001000#32 = .lw 0 4 8 ∧
  decode 0b10101100000000010000000000001000#32 = .sw 0 1 8 ∧
  decode 0b11111100000000000000000000000000#32 = .illegal 0xFC000000

/-- Decode and encode agree on every well-formed instruction with a row of the fixture, as a word and as bytes. -/
def Obligations.DecodeOfEncodeIsTheInstruction : Prop :=
  ∀ i : Instr, i.wellFormed = true → i.hasFixtureRow = true → ∀ rest : List Byte,
    decode (encode i) = i ∧ decodeBytes (encodeBytes i ++ rest) = .ok (i, rest)

/-- Encode and decode agree on every word: decoding is total (R73). That no bit is lost, those the fixture ignores among
them, is the model's choice (log entry 13). -/
def Obligations.EncodeOfDecodeIsTheWord : Prop :=
  ∀ w : Word, encode (decode w) = w ∧ (decode w).wellFormed = true ∧ (decode w).hasFixtureRow = true

/-! ## The stages, for every `NREGS`, `XLEN`, `IW`, window, decoder, handler and external state (R9) -/

/-- R101: IF leaves in `FL.pc` the next fetch address `(a + 4) & PC_MASK`, equal to `(a + 4) mod IMEM_SIZE`, and a
multiple of 4. -/
def Obligations.NextFetchAddressIsPlusFourInTheWindow : Prop :=
  (∀ (nregs xlen iw pcw : Nat) (Desc : Type) (c : CoreState nregs xlen iw pcw Desc) (imem : Mem),
    2 ≤ pcw → c.fl.pc.toNat % 4 = 0 →
    (instructionFetch imem c).fl.pc = (c.fl.pc + 4) &&& BitVec.ofNat pcw (2 ^ pcw - 4) ∧
    (instructionFetch imem c).fl.pc.toNat = (c.fl.pc.toNat + 4) % 2 ^ pcw ∧
    (instructionFetch imem c).fl.pc.toNat % 4 = 0) ∧
  pcMask 12 = 0xFFC#12

/-- R102: at the top of the window the next address is 0, and the next cycle's IF fetches from address 0. -/
def Obligations.FetchWrapsAtTheTopOfTheWindow : Prop :=
  ∀ (nregs xlen iw pcw : Nat) (Desc : Type) (c : CoreState nregs xlen iw pcw Desc) (imem imem' : Mem),
    2 ≤ pcw → c.fl.pc.toNat = 2 ^ pcw - 4 →
    (instructionFetch imem c).fl.pc = 0 ∧
    (instructionFetch imem' (instructionFetch imem c)).fl.common.pc = 0 ∧
    (instructionFetch imem' (instructionFetch imem c)).fl.iw = fetchWord iw imem' 0

/-- R52: the byte at the lowest address is the most significant byte of the fetched word, for the instruction words of
32 bits (R70). -/
def Obligations.FetchedWordIsBigEndian : Prop :=
  ∀ (imem : Mem) (a : Nat),
    (fetchWord 32 imem a).extractLsb 31 24 = imem.read a ∧
    (fetchWord 32 imem a).extractLsb 23 16 = imem.read (a + 1) ∧
    (fetchWord 32 imem a).extractLsb 15 8 = imem.read (a + 2) ∧
    (fetchWord 32 imem a).extractLsb 7 0 = imem.read (a + 3)

/-- R160, R162: WB commits the pending result to its slot and to no other, a commit to slot 0 is discarded, and WB
changes nothing but the register file. -/
def Obligations.WritebackCommitsThePendingResult : Prop :=
  ∀ (nregs xlen iw pcw : Nat) [NeZero nregs] (Desc : Type) (c : CoreState nregs xlen iw pcw Desc),
    (∀ i, readReg (writeback c).x i =
      if i = 0 then 0 else if i = c.ml.dest then c.ml.result else readReg c.x i) ∧
    (readReg c.x 0 = 0 → c.ml.dest = 0 → (writeback c).x = c.x) ∧
    (writeback c).fl = c.fl ∧ (writeback c).dl = c.dl ∧ (writeback c).el = c.el ∧ (writeback c).ml = c.ml

/-- R130: the install, the reads and the restore give each operand the value of the forwarding function, and leave the
register file as it was. -/
def Obligations.OperandsAreForwarded : Prop :=
  ∀ (nregs xlen iw pcw : Nat) [NeZero nregs] (Desc Ext : Type) (c : CoreState nregs xlen iw pcw Desc) (e : Env Ext)
    (rs rt : Fin nregs), readReg c.x 0 = 0 →
    (handlerInput rs rt c e).a =
      (if rs = 0 then 0 else if rs = c.ml.dest then c.ml.result else readReg c.x rs) ∧
    (handlerInput rs rt c e).b =
      (if rt = 0 then 0 else if rt = c.ml.dest then c.ml.result else readReg c.x rt) ∧
    (beforeHandler c).x = c.x ∧ (handlerInput rs rt c e).x = c.x

/-- R129, R131, R132, R223, R224, R228: how EX applies a handler's outputs, for every handler. A fault comes before all
else and leaves nothing applied; then a destination at or above `NREGS` stops the call; otherwise the write, the
redirect and the environment are applied. -/
def Obligations.HandlerOutputsAreApplied : Prop :=
  ∀ (nregs xlen iw pcw : Nat) [NeZero nregs] (Desc Ext : Type) (h : Handler nregs xlen pcw Ext)
    (c : CoreState nregs xlen iw pcw Desc) (e : Env Ext) (rs rt : Fin nregs), readReg c.x 0 = 0 →
    let out := h (handlerInput rs rt c e)
    let bubble : CoreState nregs xlen iw pcw Desc :=
      { c with el := { common := c.dl.common, dest := 0, result := c.el.result } }
    let pc' : BitVec pcw := match out.redirect with
      | none => c.fl.pc
      | some t => BitVec.ofNat pcw t &&& BitVec.ofNat pcw (2 ^ pcw - 4)
    (∀ r, out.fault = some r → executeStage rs rt h c e = .stop (.handler r) bubble e) ∧
    (out.fault = none → out.write = none →
      executeStage rs rt h c e = .done { bubble with fl := { c.fl with pc := pc' } } out.env) ∧
    (∀ d v, out.fault = none → out.write = some (d, v) → nregs ≤ d →
      executeStage rs rt h c e = .stop (.destOutOfRange d) bubble e) ∧
    (∀ (d : Fin nregs) (v : BitVec xlen), out.fault = none → out.write = some (d.val, v) →
      executeStage rs rt h c e =
        .done { bubble with fl := { c.fl with pc := pc' }, el := { common := c.dl.common, dest := d, result := v } }
          out.env)

/-- R131: a redirect's target is masked into the window, IF fetches from it in the same cycle, and RD of that cycle still
moves the word fetched before. -/
def Obligations.RedirectIsFetchedInTheSameCycle : Prop :=
  ∀ (nregs xlen iw pcw : Nat) (Desc : Type) (decoder : BitVec iw → Desc) (c : CoreState nregs xlen iw pcw Desc)
    (imem : Mem) (t : Nat), 2 ≤ pcw →
    let c' := instructionFetch imem (registerFetch decoder (applyRedirect (some t) c))
    c'.fl.common.pc.toNat = t % 2 ^ pcw - t % 4 ∧ c'.fl.iw = fetchWord iw imem (t % 2 ^ pcw - t % 4) ∧
    c'.dl.common = c.fl.common ∧ c'.dl.iw = c.fl.iw ∧
    instructionFetch imem (registerFetch decoder (applyRedirect none c)) =
      instructionFetch imem (registerFetch decoder c)

/-- R180: `initialize-pipeline` zero-fills the four latches and leaves the register file. -/
def Obligations.InitializeZeroFillsTheLatches : Prop :=
  (∀ (nregs xlen iw pcw : Nat) [NeZero nregs] (Desc : Type) (desc0 : Desc)
    (c : CoreState nregs xlen iw pcw Desc),
    initializePipeline desc0 c =
      { x  := c.x
        fl := { common := ⟨0⟩, pc := 0, iw := 0 }
        dl := { common := ⟨0⟩, desc := desc0, iw := 0 }
        el := { common := ⟨0⟩, dest := 0, result := 0 }
        ml := { common := ⟨0⟩, dest := 0, result := 0 } }) ∧
  (∀ s : State, s.rst = true → step s =
    .next { s with core := initializePipeline (resetDescriptor s.table) s.core })

/-! ## The step -/

/-- The machine after reset (R44): the latches as R180 leaves them, and `x[0] = 0`. The values the spec leaves open are
not part of the statement. -/
def Obligations.ResetStateIsTheInitializedPipeline : Prop :=
  State.reset.core.fl = { common := ⟨0⟩, pc := 0, iw := 0 } ∧
  State.reset.core.dl = { common := ⟨0⟩, desc := .zero, iw := 0 } ∧
  State.reset.core.el = { common := ⟨0⟩, dest := 0, result := 0 } ∧
  State.reset.core.ml = { common := ⟨0⟩, dest := 0, result := 0 } ∧
  readReg State.reset.core.x 0 = 0

/-- The reset state meets the invariant. The clauses about the two memories rest on log entry 3. -/
def Obligations.ResetMeetsTheInvariant : Prop :=
  State.reset.Inv ∧ State.reset.Decoded

/-- R171, R228: any number of calls while halt is set leaves everything as it is. That this holds on a state that is not
valid too, where R225 refuses a running call, is the model's reading, DEDUCED (log entry 10). -/
def Obligations.HaltedCallsChangeNothing : Prop :=
  ∀ (s : State) (n : Nat), s.rst = false → s.env.halt = true → Sys2Proof.core.run n s = .next s

/-- R225: a running call on a state that is not valid is refused. The order of the tests is log entry 10. -/
def Obligations.InvalidStateIsRefused : Prop :=
  ∀ s : State, s.rst = false → s.env.halt = false →
    (s.core.fl.pc.toNat % 4 ≠ 0 ∨ readReg s.core.x 0 ≠ 0) → step s = .refused .invalidState

/-- A step runs the decoded instruction: on a running state, `step` is `exec` of the instruction that `DL` holds, after
WB and DF and before RD and IF. -/
def Obligations.StepRunsTheDecodedInstruction : Prop :=
  ∀ (s : State) (i : Instr), s.Running → instrOf s.core.dl.desc s.core.dl.iw = i →
    step s = match exec i { s with core := dataFetch (writeback s.core) } with
      | .next t => .next { t with core := instructionFetch t.env.imem (registerFetch (descriptorFor t.table) t.core) }
      | .fault f => .fault f
      | .refused r => .refused r

/-- The bytes fetched in one running cycle decode to the instruction that `exec` runs two running cycles later
(R103), with the fixture plugged in. -/
def Obligations.FetchedBytesExecuteTwoCyclesLater : Prop :=
  ∀ (s t u : State) (i : Instr) (rest : List Byte), s.table = .fixture → s.Running → t.Running → u.Running →
    step s = .next t → step t = .next u →
    decodeBytes ([t.env.imem.read t.core.fl.common.pc.toNat, t.env.imem.read (t.core.fl.common.pc.toNat + 1),
      t.env.imem.read (t.core.fl.common.pc.toNat + 2), t.env.imem.read (t.core.fl.common.pc.toNat + 3)] ++ rest)
        = .ok (i, rest) →
    u.core.dl.common = t.core.fl.common ∧
    step u = match exec i (beforeExecute u) with
      | .next v => .next (afterExecute v)
      | .fault f => .fault f
      | .refused r => .refused r

/-- R170, with the refusal of R178 and R225: the machine's step is `advance-one-cycle`, with the plugged-in decoder and
the machine's handler table as its parameters. That the halt test comes before the refusal is log entry 10. -/
def Obligations.StepIsAdvanceOneCycle : Prop :=
  ∀ s : State, s.rst = false →
    step s = match advanceOneCycle rsOf rtOf (descriptorFor s.table) handlerFor s.core s.env with
      | .ok c e => .next { s with core := c, env := e }
      | .fault (.handler r) c e => .fault (.handler r { s with core := c, env := e })
      | .fault (.destOutOfRange d) c e => .fault (.destOutOfRange d { s with core := c, env := e })
      | .invalidState => .refused .invalidState

/-- R100, R110, R150, R172, R175: a running step moves every latch one stage on. `ML` is the old `EL` (DF), `DL` is the old
`FL` through the plugged-in decoder (RD), `EL` carries the address of the instruction that was in `DL` (EX), and `FL` holds
the word at its address in the instruction memory as the cycle leaves it, with the next address (IF). That address is the
old `FL.pc` unless the instruction in EX may redirect it. -/
def Obligations.RunningStepMovesEveryLatch : Prop :=
  ∀ s t : State, s.Running → step s = .next t →
    let a := t.core.fl.common.pc
    t.core.ml = ⟨s.core.el.common, s.core.el.dest, s.core.el.result⟩ ∧
    t.core.dl = ⟨s.core.fl.common, descriptorFor s.table s.core.fl.iw, s.core.fl.iw⟩ ∧
    t.core.el.common = s.core.dl.common ∧
    a.toNat % 4 = 0 ∧ t.core.fl.pc = (a + 4) &&& 0xFFC#12 ∧
    t.core.fl.iw = t.env.imem.read a.toNat ++ t.env.imem.read (a.toNat + 1) ++ t.env.imem.read (a.toNat + 2) ++
      t.env.imem.read (a.toNat + 3) ∧
    (s.core.dl.desc.mayRedirect = false → a = s.core.fl.pc)

/-- R76: no word is treated specially by the CORE. Under every descriptor, the instruction's own arm is the dispatch of
the word to the descriptor's handler, with the word's `rs` and `rt`. -/
def Obligations.EveryWordIsDispatched : Prop :=
  ∀ (d : Descriptor) (w : Word) (s : State), exec (instrOf d w) s = exec (.dispatch d w) s

/-- Every step keeps the invariant: `FL.pc` a multiple of 4, `x[0] = 0`, and both memories in canonical form
(R24, R31, R178). -/
def Obligations.EveryStepKeepsTheInvariant : Prop :=
  ∀ s t : State, s.Inv → step s = .next t → t.Inv

/-- Every step leaves in `DL` the plugged-in decoder's answer for its word, or the reset contents (R75, R110). -/
def Obligations.EveryStepKeepsDecoded : Prop :=
  ∀ s t : State, s.Decoded → step s = .next t → t.Decoded

/-- R24: slot 0 reads as zero between calls, after Writeback, before each operand read, and after the restore. -/
def Obligations.ZeroRegisterReadsZero : Prop :=
  (∀ s t : State, s.ZeroReg → step s = .next t → t.ZeroReg) ∧
  (∀ (nregs xlen iw pcw : Nat) [NeZero nregs] (Desc : Type) (c : CoreState nregs xlen iw pcw Desc),
    readReg (writeback c).x 0 = 0) ∧
  (∀ (nregs xlen : Nat) [NeZero nregs] (x : RegFile nregs xlen) (d : Fin nregs) (v : BitVec xlen),
    readReg (installPending x d v) 0 = 0) ∧
  (∀ (nregs xlen iw pcw : Nat) [NeZero nregs] (Desc : Type) (c : CoreState nregs xlen iw pcw Desc),
    readReg c.x 0 = 0 → readReg (beforeHandler c).x 0 = 0)

/-- R161: a running cycle makes exactly one commit, that of `ML`, and it is the only change of the register file; a
halted cycle makes none. -/
def Obligations.OnlyWritebackChangesRegisters : Prop :=
  ∀ s t : State, s.rst = false → step s = .next t →
    (s.env.halt = true → t.core.x = s.core.x) ∧
    (s.env.halt = false → ∀ i, readReg t.core.x i =
      if i = 0 then 0 else if i = s.core.ml.dest then s.core.ml.result else readReg s.core.x i)

/-- R32: `common.pc` moves with its instruction unchanged, and the one in `ML` is read by nothing. -/
def Obligations.CommonPcTravelsUnchanged : Prop :=
  (∀ s t : State, s.Running → step s = .next t →
    t.core.dl.common = s.core.fl.common ∧ t.core.el.common = s.core.dl.common ∧
    t.core.ml.common = s.core.el.common) ∧
  (∀ (s : State) (k : Common 12), s.Running →
    step { s with core := { s.core with ml := { s.core.ml with common := k } } } = step s)

/-- R36, R133: whatever the instruction and its handler, EX writes no register, neither `DL` nor `ML`, and of `FL` only
the next fetch address; the plugged-in table and `rst` stay. -/
def Obligations.ExecuteTouchesOnlyItsOutputs : Prop :=
  ∀ (i : Instr) (s t : State), s.ZeroReg → exec i s = .next t →
    t.core.x = s.core.x ∧ t.core.dl = s.core.dl ∧ t.core.ml = s.core.ml ∧
    t.core.fl.common = s.core.fl.common ∧ t.core.fl.iw = s.core.fl.iw ∧
    t.core.el.common = s.core.dl.common ∧ t.table = s.table ∧ t.rst = s.rst

/-- R176, R175: an instruction fetched in running cycle T is in `DL` after T+1, in `EL` after T+2, in `ML` after T+3, and
its result is committed by T+4, which changes no other register; the result is forwarded in T+3, and the file that EX
sees in T+4 holds it. -/
def Obligations.FetchedInstructionCommitsFourCyclesLater : Prop :=
  ∀ s0 s1 s2 s3 s4 s5 : State,
    s0.Running → s1.Running → s2.Running → s3.Running → s4.Running →
    step s0 = .next s1 → step s1 = .next s2 → step s2 = .next s3 → step s3 = .next s4 → step s4 = .next s5 →
    s1.core.fl.common.pc.toNat % 4 = 0 ∧ s1.core.fl.iw = readWord s1.env.imem s1.core.fl.common.pc.toNat ∧
    s2.core.dl.common = s1.core.fl.common ∧ s2.core.dl.iw = s1.core.fl.iw ∧
    s2.core.dl.desc = descriptorFor s0.table s1.core.fl.iw ∧
    s3.core.el.common = s1.core.fl.common ∧
    s4.core.ml = ⟨s3.core.el.common, s3.core.el.dest, s3.core.el.result⟩ ∧
    (∀ r, r ≠ 0 → r = s3.core.el.dest → readReg s5.core.x r = s3.core.el.result) ∧
    (∀ r, r ≠ s3.core.el.dest → readReg s5.core.x r = readReg s4.core.x r) ∧
    (∀ r, r ≠ 0 → r = s3.core.el.dest → (beforeExecute s3).operand r = s3.core.el.result) ∧
    (∀ r, r ≠ 0 → r = s3.core.el.dest → readReg (beforeExecute s4).core.x r = s3.core.el.result)

/-- R255, R256, R257: a result is forwarded to the next instruction, read from the committed file by the one after it,
and overridden there by a younger writer of the same register. The last clause is R256 at every distance: along running
steps `σ 0, σ 1, …`, a result that the instruction in EX in the first step writes to `r` is the operand `r` of the
instruction in EX `n` steps later, for every `n ≥ 1`, unless an instruction between them writes `r`. -/
def Obligations.ReadAfterWriteSeesTheNewestValue : Prop :=
  (∀ (s t u : State) (r : RegIdx), s.Running → step s = .next t → r ≠ 0 → t.core.el.dest = r →
    (beforeExecute t).operand r = t.core.el.result ∧
    (t.Running → step t = .next u →
      readReg (beforeExecute u).core.x r = t.core.el.result ∧
      (u.core.el.dest ≠ r → (beforeExecute u).operand r = t.core.el.result) ∧
      (u.core.el.dest = r → (beforeExecute u).operand r = u.core.el.result))) ∧
  (∀ (σ : Nat → State) (n : Nat) (r : RegIdx), 1 ≤ n →
    (∀ k, k < n → (σ k).Running ∧ step (σ k) = .next (σ (k + 1))) → r ≠ 0 → (σ 1).core.el.dest = r →
    (∀ k, 2 ≤ k → k ≤ n → (σ k).core.el.dest ≠ r) →
    (beforeExecute (σ n)).operand r = (σ 1).core.el.result)

/-- R259: after `j`, or a taken `beq` or `bne`, the cycle completes, its IF has fetched the target, `DL` holds the
instruction fetched before (the delay slot), and after the next running cycle `DL` holds the target's word. -/
def Obligations.TakenTransferHasOneDelaySlot : Prop :=
  ∀ (s : State) (target : BitVec 12), s.Running →
    ((∃ g : BitVec 26, s.current = .j g ∧ target = BitVec.ofNat 12 (4 * g.toNat)) ∨
     (∃ rs rt imm, (s.current = .beq rs rt imm ∧ (beforeExecute s).operand rs = (beforeExecute s).operand rt ∨
        s.current = .bne rs rt imm ∧ (beforeExecute s).operand rs ≠ (beforeExecute s).operand rt) ∧
        target = (s.core.dl.common.pc.setWidth 32 + 4 + (imm.signExtend 32 <<< 2)).setWidth 12 &&& 0xFFC#12)) →
    ∃ t, step s = .next t ∧ t.core.fl.common.pc = target ∧ t.core.fl.iw = readWord s.env.imem target.toNat ∧
      t.core.dl.common = s.core.fl.common ∧ t.core.dl.iw = s.core.fl.iw ∧
      t.core.dl.desc = descriptorFor s.table s.core.fl.iw ∧
      ∀ u, step t = .next u → u.core.dl.common.pc = target ∧ u.core.dl.iw = t.core.fl.iw

/-- R173, R203, R261: `break` sets halt and its own cycle's RD and IF still run; every later call is a no-op, with the
instruction before it frozen in `ML` and its own bubble in `EL`; once the host clears halt, the next completed call
commits the frozen `ML`. -/
def Obligations.BreakFinishesItsCycleThenFreezes : Prop :=
  ∀ (s : State) (code : BitVec 20), s.Running → s.current = .brk code →
    ∃ t, step s = .next t ∧ t.env.halt = true ∧
      t.core.dl.common = s.core.fl.common ∧ t.core.dl.iw = s.core.fl.iw ∧
      t.core.fl.common.pc = s.core.fl.pc ∧ t.core.fl.pc.toNat = (s.core.fl.pc.toNat + 4) % 4096 ∧
      t.core.ml = ⟨s.core.el.common, s.core.el.dest, s.core.el.result⟩ ∧
      t.core.el = ⟨s.core.dl.common, 0, s.core.el.result⟩ ∧
      (∀ n, Sys2Proof.core.run n t = .next t) ∧
      (∀ u, step (hostSetHalt t false) = .next u → s.core.el.dest ≠ 0 →
        readReg u.core.x s.core.el.dest = s.core.el.result)

/-- R64, R260: the word IF fetches is the instruction memory's after this cycle's handler, and the word RD moves into
`DL` is the one fetched in the cycle before, even where it was overwritten since. -/
def Obligations.FetchSeesTheCyclesOwnWrites : Prop :=
  ∀ s t m : State, s.Running → exec s.current (beforeExecute s) = .next m → step s = .next t →
    t.env = m.env ∧ t.core.fl.iw = readWord m.env.imem t.core.fl.common.pc.toNat ∧
    t.core.fl.common.pc = m.core.fl.pc ∧ t.core.dl.iw = s.core.fl.iw

/-- R253: after the latches are reset, with halt clear and the fixture plugged in, two calls run the phantoms `ZERO` and
`decode(0)` and leave the registers and the environment alone, and the third call executes the word at address 0. -/
def Obligations.FirstCyclesAfterReset : Prop :=
  ∀ s : State, s.Running → s.table = .fixture → s.core = initializePipeline .zero s.core →
    ∃ t u, step s = .next t ∧ step t = .next u ∧
      s.current = .dispatch .zero 0 ∧ t.current = .sll 0 0 0 0 ∧
      t.core.fl = { common := ⟨0⟩, pc := 4, iw := readWord s.env.imem 0 } ∧
      u.core.fl = { common := ⟨4⟩, pc := 8, iw := readWord s.env.imem 4 } ∧
      u.core.x = s.core.x ∧ u.env = s.env ∧ u.Running ∧ u.core.dl.common.pc = 0 ∧
      u.current = decode (readWord s.env.imem 0)

/-- R254: the boot procedure, an operation beside `step` (log entry 16), leaves the latches as reset, halt clear, every
register and the rest of `Ext` as they were, each word of a program that fits in the window at its place, and each byte of
data at its address; every other byte of both memories is as it was. -/
def Obligations.BootLoadsTheProgram : Prop :=
  ∀ (s : State) (program : List Word) (data : List (BitVec 12 × Byte)),
    s.env.imem.wf 4096 = true → s.env.ext.dmem.wf 4096 = true → 4 * program.length ≤ 4096 →
    (boot s program data).core = initializePipeline (resetDescriptor s.table) s.core ∧
    (boot s program data).env.halt = false ∧
    (boot s program data).env.ext.other = s.env.ext.other ∧
    (∀ k (hk : k < program.length), readWord (boot s program data).env.imem (4 * k) = program[k]) ∧
    (∀ a, 4 * program.length ≤ a → (boot s program data).env.imem.read a = s.env.imem.read a) ∧
    ((data.map Prod.fst).Nodup → ∀ p ∈ data, (boot s program data).env.ext.dmem.read p.1.toNat = p.2) ∧
    (∀ a, (∀ p ∈ data, p.1.toNat ≠ a) → (boot s program data).env.ext.dmem.read a = s.env.ext.dmem.read a)

/-! ## The instructions: results, completion and frames -/

/-- R193: `sll rd, rt, sa` writes `(b << sa) mod 2^32` to `rd`; nothing else changes. -/
def Obligations.SllWritesTheShiftedOperand : Prop :=
  ∀ (rs rt rd : RegIdx) (sa : BitVec 5) (s : State), s.ZeroReg →
    exec (.sll rs rt rd sa) s =
      .next (s.setEl (s.resultEl rd (BitVec.ofNat 32 ((s.operand rt).toNat * 2 ^ sa.toNat))))

/-- R194: `addu rd, rs, rt` writes `(a + b) mod 2^32` to `rd`; nothing else changes. -/
def Obligations.AdduWritesTheSum : Prop :=
  ∀ (rs rt rd : RegIdx) (sa : BitVec 5) (s : State), s.ZeroReg →
    exec (.addu rs rt rd sa) s =
      .next (s.setEl (s.resultEl rd (BitVec.ofNat 32 ((s.operand rs).toNat + (s.operand rt).toNat))))

/-- R195: `subu rd, rs, rt` writes `(a - b) mod 2^32` to `rd`; nothing else changes. -/
def Obligations.SubuWritesTheDifference : Prop :=
  ∀ (rs rt rd : RegIdx) (sa : BitVec 5) (s : State), s.ZeroReg →
    exec (.subu rs rt rd sa) s =
      .next (s.setEl (s.resultEl rd (BitVec.ofInt 32 ((s.operand rs).toNat - (s.operand rt).toNat))))

/-- R196: `or rd, rs, rt` writes, bit by bit, `a | b` to `rd`; nothing else changes. -/
def Obligations.OrWritesTheDisjunction : Prop :=
  ∀ (rs rt rd : RegIdx) (sa : BitVec 5) (s : State), s.ZeroReg →
    ∃ v : Word, (∀ k, v.getLsbD k = ((s.operand rs).getLsbD k || (s.operand rt).getLsbD k)) ∧
      exec (.or rs rt rd sa) s = .next (s.setEl (s.resultEl rd v))

/-- R197: `addiu rt, rs, imm` writes `(a + sext_32(imm)) mod 2^32` to `rt`; nothing else changes. -/
def Obligations.AddiuWritesTheSumWithTheImmediate : Prop :=
  ∀ (rs rt : RegIdx) (imm : BitVec 16) (s : State), s.ZeroReg →
    exec (.addiu rs rt imm) s =
      .next (s.setEl (s.resultEl rt (BitVec.ofInt 32 ((s.operand rs).toNat + imm.toInt))))

/-- R198 with R192: `lw` on an aligned address writes the big-endian word at `addr & 0xFFF` to `rt`, and nothing else
changes; on a misaligned address it faults. -/
def Obligations.LwLoadsTheBigEndianWord : Prop :=
  ∀ (rs rt : RegIdx) (imm : BitVec 16) (s : State), s.ZeroReg →
    let addr := s.operand rs + imm.signExtend 32
    let a := addr.toNat % 4096
    (addr.toNat % 4 = 0 → exec (.lw rs rt imm) s = .next (s.setEl (s.resultEl rt
      (s.env.ext.dmem.read a ++ s.env.ext.dmem.read (a + 1) ++ s.env.ext.dmem.read (a + 2) ++
        s.env.ext.dmem.read (a + 3))))) ∧
    (addr.toNat % 4 ≠ 0 →
      exec (.lw rs rt imm) s = .fault (.handler .fixtureMisaligned (s.setEl s.bubbleEl)))

/-- R199 with R192: `sw` on an aligned address completes, writes no register, and changes exactly the four bytes at
`addr & 0xFFF`, to the big-endian bytes of `b`; on a misaligned address it faults. -/
def Obligations.SwStoresTheBigEndianWord : Prop :=
  ∀ (rs rt : RegIdx) (imm : BitVec 16) (s : State), s.ZeroReg → s.env.ext.dmem.wf 4096 = true →
    let addr := s.operand rs + imm.signExtend 32
    let a := addr.toNat % 4096
    (addr.toNat % 4 = 0 → ∃ m : Mem,
      exec (.sw rs rt imm) s = .next ((s.setEl s.bubbleEl).setDmem m) ∧
      m.wf 4096 = true ∧
      m.read a = (s.operand rt).extractLsb 31 24 ∧ m.read (a + 1) = (s.operand rt).extractLsb 23 16 ∧
      m.read (a + 2) = (s.operand rt).extractLsb 15 8 ∧ m.read (a + 3) = (s.operand rt).extractLsb 7 0 ∧
      ∀ b, (b < a ∨ a + 4 ≤ b) → m.read b = s.env.ext.dmem.read b) ∧
    (addr.toNat % 4 ≠ 0 →
      exec (.sw rs rt imm) s = .fault (.handler .fixtureMisaligned (s.setEl s.bubbleEl)))

/-- R200: `beq` redirects to `pc + 4 + (sext_32(imm) << 2)`, masked, exactly when its operands are equal; it writes no
register. -/
def Obligations.BeqRedirectsWhenEqual : Prop :=
  ∀ (rs rt : RegIdx) (imm : BitVec 16) (s : State), s.ZeroReg →
    (s.operand rs = s.operand rt → exec (.beq rs rt imm) s = .next ((s.setEl s.bubbleEl).setFlPc
      ((s.core.dl.common.pc.setWidth 32 + 4 + (imm.signExtend 32 <<< 2)).setWidth 12 &&& 0xFFC#12))) ∧
    (s.operand rs ≠ s.operand rt → exec (.beq rs rt imm) s = .next (s.setEl s.bubbleEl))

/-- R201: `bne` redirects to `pc + 4 + (sext_32(imm) << 2)`, masked, exactly when its operands differ; it writes no
register. -/
def Obligations.BneRedirectsWhenDifferent : Prop :=
  ∀ (rs rt : RegIdx) (imm : BitVec 16) (s : State), s.ZeroReg →
    (s.operand rs ≠ s.operand rt → exec (.bne rs rt imm) s = .next ((s.setEl s.bubbleEl).setFlPc
      ((s.core.dl.common.pc.setWidth 32 + 4 + (imm.signExtend 32 <<< 2)).setWidth 12 &&& 0xFFC#12))) ∧
    (s.operand rs = s.operand rt → exec (.bne rs rt imm) s = .next (s.setEl s.bubbleEl))

/-- R202: `j` redirects to `target << 2`, of which `target[9:0]` survives the mask; it writes no register. -/
def Obligations.JRedirectsToTheTarget : Prop :=
  ∀ (target : BitVec 26) (s : State), s.ZeroReg →
    exec (.j target) s =
      .next ((s.setEl s.bubbleEl).setFlPc (BitVec.ofNat 12 ((target.extractLsb 9 0).toNat * 4)))

/-- R203: `break` sets halt, writes no register, and changes nothing else. -/
def Obligations.BreakSetsHalt : Prop :=
  ∀ (code : BitVec 20) (s : State), s.ZeroReg →
    exec (.brk code) s = .next ((s.setEl s.bubbleEl).setHalt true)

/-- R204: `ILLEGAL` completes with no effect but the bubble every instruction that writes nothing leaves in `EL`. -/
def Obligations.IllegalDoesNothing : Prop :=
  ∀ (w : Word) (s : State), s.ZeroReg → exec (.illegal w) s = .next (s.setEl s.bubbleEl)

/-- R205: DISPATCH of `ZERO`, the reset contents of `DL.desc`, completes with no effect but the bubble in `EL`, whatever
word stands beside it; and no word decodes to it. -/
def Obligations.DispatchOfZeroDoesNothing : Prop :=
  (∀ (w : Word) (s : State), s.ZeroReg → exec (.dispatch .zero w) s = .next (s.setEl s.bubbleEl)) ∧
  (∀ (t : HandlerTable) (w : Word), descriptorFor t w ≠ .zero)

/-- R127 to R132, R223, R224: DISPATCH of an external descriptor calls the external table with the contract's inputs and
applies what it answers. The answer is a free value (log entry 11), and the statement holds for every one. -/
def Obligations.ExternalDispatchAppliesTheHandlersAnswer : Prop :=
  ∀ (bits : BitVec 64) (w : Word) (s : State), s.ZeroReg →
    let f := Config.extHandler
      { desc := bits, iw := w, a := s.operand (w.extractLsb 25 21).toFin, b := s.operand (w.extractLsb 20 16).toFin
        pc := s.core.dl.common.pc, x := s.core.x, halt := s.env.halt, imem := s.env.imem
        dmem := s.env.ext.dmem, other := s.env.ext.other }
    let e : Env ExtState :=
      { halt := f.halt, imem := writeBytes s.env.imem f.imemWrites
        ext := { dmem := writeBytes s.env.ext.dmem f.dmemWrites, other := f.other } }
    let redirected : State := match f.redirect with
      | none => s
      | some t => s.setFlPc (BitVec.ofNat 12 t &&& 0xFFC#12)
    exec (.dispatch (.external bits) w) s =
      match f.fault, f.write with
      | some r, _ => .fault (.handler (.external r) (s.setEl s.bubbleEl))
      | none, none => .next { redirected.setEl s.bubbleEl with env := e }
      | none, some (d, v) =>
        if hd : d < 32 then .next { redirected.setEl (s.resultEl ⟨d, hd⟩ v) with env := e }
        else .fault (.destOutOfRange d (s.setEl s.bubbleEl))

/-- The frame of every fixture instruction but `sw`, under its own constructor and under DISPATCH (`sll`, `break`,
`addu`, `subu`, `or`, `j`, `beq`, `bne`, `addiu`, `lw`, `ILLEGAL`, `ZERO`): it stores nothing, so every byte of both
memories reads as before; every register, `DL`, `ML`, the fetched word with its address, and the rest of `Ext` are
unchanged; the next fetch address changes only by `j`, `beq`, `bne`, halt only by `break`, and `EL`'s destination and
result only by an instruction that writes a register. -/
def Obligations.NonStoringInstructionsFrame : Prop :=
  ∀ (i : Instr) (s t : State), s.ZeroReg → (descriptorOf i).ofFixture = true → descriptorOf i ≠ .sw →
    exec i s = .next t →
    (∀ r, readReg t.core.x r = readReg s.core.x r) ∧
    (∀ a, t.env.ext.dmem.read a = s.env.ext.dmem.read a) ∧ (∀ a, t.env.imem.read a = s.env.imem.read a) ∧
    t.env.ext.other = s.env.ext.other ∧ t.core.dl = s.core.dl ∧ t.core.ml = s.core.ml ∧
    t.core.fl.common = s.core.fl.common ∧ t.core.fl.iw = s.core.fl.iw ∧ t.table = s.table ∧ t.rst = s.rst ∧
    ((descriptorOf i).mayRedirect = false → t.core.fl.pc = s.core.fl.pc) ∧
    (descriptorOf i ≠ .brk → t.env.halt = s.env.halt) ∧
    ((descriptorOf i).mayWrite = false → t.core.el.dest = 0 ∧ t.core.el.result = s.core.el.result)

/-- The frame of `sw`: every byte of the data memory outside the four at the stored address reads as before, and nothing
else changes but `EL`, which holds a bubble. The address is the one the meaning computes, from the state it is given. -/
def Obligations.SwFrame : Prop :=
  ∀ (rs rt : RegIdx) (imm : BitVec 16) (s t : State), s.ZeroReg → s.env.ext.dmem.wf 4096 = true →
    exec (.sw rs rt imm) s = .next t →
    (∀ a, dmemAddr (addImm (s.operand rs) imm) = a →
      ∀ b, (b < a ∨ a + 4 ≤ b) → t.env.ext.dmem.read b = s.env.ext.dmem.read b) ∧
    (∀ r, readReg t.core.x r = readReg s.core.x r) ∧ (∀ a, t.env.imem.read a = s.env.imem.read a) ∧
    t.env.ext.other = s.env.ext.other ∧ t.env.halt = s.env.halt ∧ t.core.fl = s.core.fl ∧
    t.core.dl = s.core.dl ∧ t.core.ml = s.core.ml ∧ t.table = s.table ∧ t.rst = s.rst ∧ t.core.el = s.bubbleEl

/-- R192: a word stored at an aligned address is loaded back from it, and every other aligned address loads what it did;
addresses that agree modulo 4096 are the same place. -/
def Obligations.LoadAfterStore : Prop :=
  ∀ (e : Env ExtState) (addr addr' v : Word), e.ext.dmem.wf 4096 = true →
    addr.toNat % 4 = 0 → addr'.toNat % 4 = 0 →
    dload (dstore e addr v) addr' =
      if addr'.toNat % 4096 = addr.toNat % 4096 then v else dload e addr'

/-! ## Whole-machine rules -/

/-- With the fixture plugged in (R190): no step writes the instruction memory or the rest of `Ext`, only a running `sw`
changes the data memory, and only a running `break` changes halt. -/
def Obligations.FixtureEffectsAreConfined : Prop :=
  ∀ s t : State, s.table = .fixture → s.Decoded → step s = .next t →
    t.env.imem = s.env.imem ∧ t.env.ext.other = s.env.ext.other ∧
    (s.core.dl.desc ≠ .sw → t.env.ext.dmem = s.env.ext.dmem) ∧
    (s.core.dl.desc ≠ .brk → t.env.halt = s.env.halt) ∧
    t.table = .fixture ∧ t.rst = s.rst

/-- With the fixture plugged in, a step from a good state is never refused, and it faults only where a running `lw` or `sw`
names an address that is not a multiple of 4 (R192, R220, R223); the state kept with the fault has `FL` and `DL` as before the
call, because RD and IF did not run. -/
def Obligations.FixtureFaultsOnlyOnMisalignedAccess : Prop :=
  ∀ s : State, s.table = .fixture → s.Inv → s.Decoded →
    (∀ r, step s ≠ .refused r) ∧
    (∀ f, step s = .fault f →
      ∃ rs rt imm, (s.current = .lw rs rt imm ∨ s.current = .sw rs rt imm) ∧
        ((beforeExecute s).operand rs + imm.signExtend 32).toNat % 4 ≠ 0 ∧
        ∃ k, f = .handler .fixtureMisaligned k ∧ k.core.fl = s.core.fl ∧ k.core.dl = s.core.dl)

/-- R43: what the host does between calls leaves the register file and the latches as they are, and keeps the
invariant. -/
def Obligations.HostWritesLeaveTheCoreAlone : Prop :=
  ∀ (s : State) (v : Bool) (a : BitVec 12) (b : Byte) (n : Nat), s.Inv →
    ∀ t ∈ [hostSetReset s v, hostSetHalt s v, hostWriteImem s a b, hostWriteDmem s a b, hostSetOther s n],
      t.core = s.core ∧ t.Inv
end

