-- ==== Sys2Proof/Laws/Memory.lean ====
section
/-! SUPPORT. The memory: reading after writing, and the canonical form. -/

namespace Sys2Proof.Machine

@[simp] theorem Mem.read_nil (a : Nat) : Mem.read [] a = Mem.unlisted := rfl

theorem Mem.read_cons (k : Nat) (v : Byte) (m : Mem) (a : Nat) :
    Mem.read ((k, v) :: m) a = if k = a then v else Mem.read m a := rfl

/-- In a memory in canonical form from `lo` on, an address below `lo` has no entry. -/
theorem Mem.read_of_lt {m : Mem} {lo size a : Nat} (h : Mem.wfFrom lo size m = true) (ha : a < lo) :
    m.read a = Mem.unlisted := by
  induction m generalizing lo with
  | nil => rfl
  | cons c rest ih =>
    obtain ⟨k, v⟩ := c
    simp only [Mem.wfFrom, Bool.and_eq_true, decide_eq_true_eq] at h
    rw [Mem.read_cons, if_neg (by omega)]
    exact ih h.2 (by omega)

/-- The canonical form from a lower address on. -/
theorem Mem.wfFrom_mono {m : Mem} {lo lo' size : Nat} (h : Mem.wfFrom lo size m = true) (hl : lo' ≤ lo) :
    Mem.wfFrom lo' size m = true := by
  cases m with
  | nil => rfl
  | cons c rest =>
    obtain ⟨k, v⟩ := c
    simp only [Mem.wfFrom, Bool.and_eq_true, decide_eq_true_eq] at h ⊢
    exact ⟨⟨⟨by omega, h.1.1.2⟩, h.1.2⟩, h.2⟩

theorem Mem.cons_wfFrom {m : Mem} {lo size a : Nat} {v : Byte} (h : Mem.wfFrom (a + 1) size m = true)
    (hl : lo ≤ a) (hs : a < size) : Mem.wfFrom lo size (Mem.cons a v m) = true := by
  unfold Mem.cons
  split
  · exact Mem.wfFrom_mono h (by omega)
  · rename_i hv
    simp [Mem.wfFrom, hl, hs, hv, h]

/-- A write inside the memory keeps the canonical form. -/
theorem Mem.write_wfFrom {m : Mem} {lo size a : Nat} {v : Byte} (h : Mem.wfFrom lo size m = true)
    (hl : lo ≤ a) (hs : a < size) : Mem.wfFrom lo size (m.write a v) = true := by
  induction m generalizing lo with
  | nil => exact Mem.cons_wfFrom rfl hl hs
  | cons c rest ih =>
    obtain ⟨k, w⟩ := c
    simp only [Mem.wfFrom, Bool.and_eq_true, decide_eq_true_eq] at h
    unfold Mem.write
    split
    · apply Mem.cons_wfFrom _ hl hs
      simp only [Mem.wfFrom, Bool.and_eq_true, decide_eq_true_eq]
      exact ⟨⟨⟨by omega, h.1.1.2⟩, h.1.2⟩, h.2⟩
    · split
      · apply Mem.cons_wfFrom _ hl hs
        exact Mem.wfFrom_mono h.2 (by omega)
      · simp only [Mem.wfFrom, Bool.and_eq_true, decide_eq_true_eq]
        exact ⟨h.1, ih h.2 (by omega)⟩

/-- A write inside the memory keeps the canonical form (the memory as a whole). -/
theorem Mem.write_wf {m : Mem} {size a : Nat} {v : Byte} (h : m.wf size = true) (hs : a < size) :
    (m.write a v).wf size = true := Mem.write_wfFrom h (by omega) hs

theorem Mem.cons_read {m : Mem} {a b : Nat} {v : Byte} (h : m.read a = Mem.unlisted) :
    (Mem.cons a v m).read b = if b = a then v else m.read b := by
  unfold Mem.cons
  split
  · split
    · simp_all
    · rfl
  · rw [Mem.read_cons]
    simp only [eq_comm]

/-- What a byte reads as after a write, in a memory in canonical form. -/
theorem Mem.read_write_from {m : Mem} {lo size : Nat} (h : Mem.wfFrom lo size m = true) (a b : Nat) (v : Byte) :
    (m.write a v).read b = if b = a then v else m.read b := by
  induction m generalizing lo with
  | nil => exact Mem.cons_read rfl
  | cons c rest ih =>
    obtain ⟨k, w⟩ := c
    simp only [Mem.wfFrom, Bool.and_eq_true, decide_eq_true_eq] at h
    unfold Mem.write
    split
    · apply Mem.cons_read
      rw [Mem.read_cons, if_neg (by omega)]
      exact Mem.read_of_lt h.2 (by omega)
    · split
      · subst a
        rw [Mem.cons_read (Mem.read_of_lt h.2 (by omega)), Mem.read_cons]
        split
        · rfl
        · rw [if_neg (by omega)]
      · rw [Mem.read_cons, ih h.2, Mem.read_cons]
        split
        · rw [if_neg (by omega)]
        · rfl

/-- What a byte reads as after a write, in a memory in canonical form (the memory as a whole). -/
theorem Mem.read_write {m : Mem} {size : Nat} (h : m.wf size = true) (a b : Nat) (v : Byte) :
    (m.write a v).read b = if b = a then v else m.read b := Mem.read_write_from h a b v

/-- Two memories in canonical form that read alike everywhere are the same list. -/
theorem Mem.ext_of_read {m n : Mem} {lo size : Nat} (hm : Mem.wfFrom lo size m = true)
    (hn : Mem.wfFrom lo size n = true) (h : ∀ a, m.read a = n.read a) : m = n := by
  induction m generalizing lo n with
  | nil =>
    cases n with
    | nil => rfl
    | cons d rest =>
      obtain ⟨k, v⟩ := d
      simp only [Mem.wfFrom, Bool.and_eq_true, decide_eq_true_eq] at hn
      have := h k
      rw [Mem.read_nil, Mem.read_cons, if_pos rfl] at this
      exact absurd this.symm hn.1.2
  | cons c rest ih =>
    obtain ⟨k, v⟩ := c
    simp only [Mem.wfFrom, Bool.and_eq_true, decide_eq_true_eq] at hm
    cases n with
    | nil =>
      have := h k
      rw [Mem.read_nil, Mem.read_cons, if_pos rfl] at this
      exact absurd this hm.1.2
    | cons d rest' =>
      obtain ⟨k', v'⟩ := d
      simp only [Mem.wfFrom, Bool.and_eq_true, decide_eq_true_eq] at hn
      have hk : k = k' := by
        rcases Nat.lt_trichotomy k k' with hlt | heq | hgt
        · have := h k
          rw [Mem.read_cons, if_pos rfl, Mem.read_cons, if_neg (by omega),
            Mem.read_of_lt hn.2 (by omega)] at this
          exact absurd this hm.1.2
        · exact heq
        · have := h k'
          rw [Mem.read_cons, if_neg (by omega), Mem.read_of_lt hm.2 (by omega), Mem.read_cons,
            if_pos rfl] at this
          exact absurd this.symm hn.1.2
      subst hk
      have hv : v = v' := by simpa [Mem.read_cons] using h k
      subst hv
      rw [ih hm.2 hn.2]
      intro a
      by_cases ha : k = a
      · subst ha
        rw [Mem.read_of_lt hm.2 (by omega), Mem.read_of_lt hn.2 (by omega)]
      · simpa [Mem.read_cons, ha] using h a

/-- At `IW = 32` the fetched word is the four bytes' word (R52). -/
@[simp] theorem fetchWord_word (imem : Mem) (a : Nat) : fetchWord 32 imem a = readWord imem a :=
  BitVec.setWidth_eq _

/-- A word write inside the memory keeps the canonical form. -/
theorem writeWord_wf {m : Mem} {size a : Nat} {v : Word} (h : m.wf size = true) (hs : a + 3 < size) :
    (writeWord m a v).wf size = true :=
  Mem.write_wf (Mem.write_wf (Mem.write_wf (Mem.write_wf h (by omega)) (by omega)) (by omega)) hs

/-- What a byte reads as after a word write: the four stored bytes, and every other byte as before. -/
theorem read_writeWord {m : Mem} {size a : Nat} (h : m.wf size = true) (hs : a + 3 < size) (v : Word) (b : Nat) :
    (writeWord m a v).read b =
      if b = a + 3 then v.extractLsb' 0 8
      else if b = a + 2 then v.extractLsb' 8 8
      else if b = a + 1 then v.extractLsb' 16 8
      else if b = a then v.extractLsb' 24 8
      else m.read b := by
  have h1 := Mem.write_wf (v := v.extractLsb' 24 8) h (show a < size by omega)
  have h2 := Mem.write_wf (v := v.extractLsb' 16 8) h1 (show a + 1 < size by omega)
  have h3 := Mem.write_wf (v := v.extractLsb' 8 8) h2 (show a + 2 < size by omega)
  rw [writeWord, Mem.read_write h3, Mem.read_write h2, Mem.read_write h1, Mem.read_write h]

/-- A list of byte writes keeps the canonical form. -/
theorem writeBytes_wf {m : Mem} (ws : List (BitVec 12 × Byte)) (h : m.wf 4096 = true) :
    (writeBytes m ws).wf 4096 = true := by
  induction ws generalizing m with
  | nil => exact h
  | cons w rest ih => exact ih (Mem.write_wf h w.1.isLt)

end Sys2Proof.Machine
end

