-- ==== Sys2Proof/Laws/Registers.lean ====
section
/-! SUPPORT. The register file, the install and the restore, and fetch addresses. -/

namespace Sys2Proof.Machine

variable {nregs xlen pcw : Nat}

@[simp] theorem readReg_writeReg_same (x : RegFile nregs xlen) (i : Fin nregs) (v : BitVec xlen) :
    readReg (writeReg x i v) i = v := by
  simp [readReg, writeReg]

theorem readReg_writeReg (x : RegFile nregs xlen) (i j : Fin nregs) (v : BitVec xlen) :
    readReg (writeReg x i v) j = if j = i then v else readReg x j := by
  by_cases h : j = i
  · subst h
    simp
  · have hne : i.val ≠ j.val := fun e => h (Fin.ext e.symm)
    simp [readReg, writeReg, h, Vector.getElem_set_ne, hne]

/-- Two register files that read alike are the same. -/
theorem regFile_ext {x y : RegFile nregs xlen} (h : ∀ i, readReg x i = readReg y i) : x = y := by
  apply Vector.ext
  intro i hi
  exact h ⟨i, hi⟩

/-- A slot of the installed file: slot 0 is zero, the pending slot holds the pending result. -/
theorem readReg_installPending [NeZero nregs] (x : RegFile nregs xlen) (d : Fin nregs) (v : BitVec xlen) (i : Fin nregs) :
    readReg (installPending x d v) i = if i = 0 then 0 else if i = d then v else readReg x i := by
  simp only [installPending, readReg_writeReg]

/-- The restore undoes the install in a file whose slot 0 is zero. -/
theorem restorePending_installPending [NeZero nregs] {x : RegFile nregs xlen} (h : readReg x 0 = 0) (d : Fin nregs) (v : BitVec xlen) :
    restorePending (installPending x d v) x d = x := by
  apply regFile_ext
  intro i
  simp only [restorePending, readReg_writeReg, readReg_installPending]
  split
  · simp_all
  · split
    · simp_all
    · rfl

/-- WB leaves slot 0 at zero. -/
@[simp] theorem readReg_installPending_zero [NeZero nregs] (x : RegFile nregs xlen) (d : Fin nregs) (v : BitVec xlen) :
    readReg (installPending x d v) 0 = 0#xlen := by
  simp [readReg_installPending]

/-- The low two bits of a masked value are cleared. -/
theorem and_pcMask_toNat (hp : 2 ≤ pcw) (a : BitVec pcw) : (a &&& pcMask pcw).toNat = a.toNat / 4 * 4 := by
  obtain ⟨k, rfl⟩ : ∃ k, pcw = k + 2 := ⟨pcw - 2, by omega⟩
  have hlt := a.isLt
  have h2 : 2 ^ (k + 2) = 2 ^ k * 2 ^ 2 := pow_add 2 k 2
  have hk : 0 < 2 ^ k := Nat.two_pow_pos k
  have hm : (pcMask (k + 2)).toNat = (2 ^ k - 1) * 2 ^ 2 := by
    rw [pcMask, BitVec.toNat_ofNat, Nat.mod_eq_of_lt (by omega)]
    omega
  apply Nat.eq_of_testBit_eq
  intro i
  rw [BitVec.toNat_and, hm, Nat.testBit_and, show a.toNat / 4 * 4 = a.toNat / 2 ^ 2 * 2 ^ 2 from rfl,
    Nat.testBit_mul_two_pow, Nat.testBit_mul_two_pow, Nat.testBit_div_two_pow, Nat.testBit_two_pow_sub_one]
  by_cases hi : 2 ≤ i
  · rw [Nat.sub_add_cancel hi]
    by_cases hik : i - 2 < k
    · simp [hi, hik]
    · have : a.toNat.testBit i = false :=
        Nat.testBit_lt_two_pow (lt_of_lt_of_le hlt (Nat.pow_le_pow_right (by omega) (by omega)))
      simp [this]
  · simp [hi]

/-- `nextPc` and `maskTarget` answer multiples of 4 (the default window). -/
theorem nextPc_aligned (a : BitVec 12) : (nextPc a).toNat % 4 = 0 := by
  rw [nextPc, and_pcMask_toNat (by omega)]
  omega

theorem maskTarget_aligned (t : Nat) : (maskTarget 12 t).toNat % 4 = 0 := by
  rw [maskTarget, and_pcMask_toNat (by omega)]
  omega

end Sys2Proof.Machine
end

