-- ==== Sys2Proof/Laws/State.lean ====
section
/-! SUPPORT. What each update of the state leaves in each field. -/

namespace Sys2Proof.Machine

variable (s : State)

@[simp] theorem State.put_core (c : CoreState 32 32 32 12 Descriptor) (e : Env ExtState) : (s.put c e).core = c := rfl
@[simp] theorem State.put_env (c : CoreState 32 32 32 12 Descriptor) (e : Env ExtState) : (s.put c e).env = e := rfl
@[simp] theorem State.put_table (c : CoreState 32 32 32 12 Descriptor) (e : Env ExtState) :
    (s.put c e).table = s.table := rfl
@[simp] theorem State.put_rst (c : CoreState 32 32 32 12 Descriptor) (e : Env ExtState) :
    (s.put c e).rst = s.rst := rfl

@[simp] theorem State.setEl_core_x (l : ExecLatch 32 32 12) :
    (s.setEl l).core.x = s.core.x := rfl
@[simp] theorem State.setEl_core_fl (l : ExecLatch 32 32 12) :
    (s.setEl l).core.fl = s.core.fl := rfl
@[simp] theorem State.setEl_core_dl (l : ExecLatch 32 32 12) :
    (s.setEl l).core.dl = s.core.dl := rfl
@[simp] theorem State.setEl_core_el (l : ExecLatch 32 32 12) :
    (s.setEl l).core.el = l := rfl
@[simp] theorem State.setEl_core_ml (l : ExecLatch 32 32 12) :
    (s.setEl l).core.ml = s.core.ml := rfl
@[simp] theorem State.setEl_env_halt (l : ExecLatch 32 32 12) :
    (s.setEl l).env.halt = s.env.halt := rfl
@[simp] theorem State.setEl_env_imem (l : ExecLatch 32 32 12) :
    (s.setEl l).env.imem = s.env.imem := rfl
@[simp] theorem State.setEl_env_ext_dmem (l : ExecLatch 32 32 12) :
    (s.setEl l).env.ext.dmem = s.env.ext.dmem := rfl
@[simp] theorem State.setEl_env_ext_other (l : ExecLatch 32 32 12) :
    (s.setEl l).env.ext.other = s.env.ext.other := rfl
@[simp] theorem State.setEl_table (l : ExecLatch 32 32 12) :
    (s.setEl l).table = s.table := rfl
@[simp] theorem State.setEl_rst (l : ExecLatch 32 32 12) :
    (s.setEl l).rst = s.rst := rfl

@[simp] theorem State.setFlPc_core_x (p : BitVec 12) :
    (s.setFlPc p).core.x = s.core.x := rfl
@[simp] theorem State.setFlPc_core_fl (p : BitVec 12) :
    (s.setFlPc p).core.fl = { s.core.fl with pc := p } := rfl
@[simp] theorem State.setFlPc_core_dl (p : BitVec 12) :
    (s.setFlPc p).core.dl = s.core.dl := rfl
@[simp] theorem State.setFlPc_core_el (p : BitVec 12) :
    (s.setFlPc p).core.el = s.core.el := rfl
@[simp] theorem State.setFlPc_core_ml (p : BitVec 12) :
    (s.setFlPc p).core.ml = s.core.ml := rfl
@[simp] theorem State.setFlPc_env_halt (p : BitVec 12) :
    (s.setFlPc p).env.halt = s.env.halt := rfl
@[simp] theorem State.setFlPc_env_imem (p : BitVec 12) :
    (s.setFlPc p).env.imem = s.env.imem := rfl
@[simp] theorem State.setFlPc_env_ext_dmem (p : BitVec 12) :
    (s.setFlPc p).env.ext.dmem = s.env.ext.dmem := rfl
@[simp] theorem State.setFlPc_env_ext_other (p : BitVec 12) :
    (s.setFlPc p).env.ext.other = s.env.ext.other := rfl
@[simp] theorem State.setFlPc_table (p : BitVec 12) :
    (s.setFlPc p).table = s.table := rfl
@[simp] theorem State.setFlPc_rst (p : BitVec 12) :
    (s.setFlPc p).rst = s.rst := rfl

@[simp] theorem State.setHalt_core_x (v : Bool) :
    (s.setHalt v).core.x = s.core.x := rfl
@[simp] theorem State.setHalt_core_fl (v : Bool) :
    (s.setHalt v).core.fl = s.core.fl := rfl
@[simp] theorem State.setHalt_core_dl (v : Bool) :
    (s.setHalt v).core.dl = s.core.dl := rfl
@[simp] theorem State.setHalt_core_el (v : Bool) :
    (s.setHalt v).core.el = s.core.el := rfl
@[simp] theorem State.setHalt_core_ml (v : Bool) :
    (s.setHalt v).core.ml = s.core.ml := rfl
@[simp] theorem State.setHalt_env_halt (v : Bool) :
    (s.setHalt v).env.halt = v := rfl
@[simp] theorem State.setHalt_env_imem (v : Bool) :
    (s.setHalt v).env.imem = s.env.imem := rfl
@[simp] theorem State.setHalt_env_ext_dmem (v : Bool) :
    (s.setHalt v).env.ext.dmem = s.env.ext.dmem := rfl
@[simp] theorem State.setHalt_env_ext_other (v : Bool) :
    (s.setHalt v).env.ext.other = s.env.ext.other := rfl
@[simp] theorem State.setHalt_table (v : Bool) :
    (s.setHalt v).table = s.table := rfl
@[simp] theorem State.setHalt_rst (v : Bool) :
    (s.setHalt v).rst = s.rst := rfl

@[simp] theorem State.setDmem_core_x (m : Mem) :
    (s.setDmem m).core.x = s.core.x := rfl
@[simp] theorem State.setDmem_core_fl (m : Mem) :
    (s.setDmem m).core.fl = s.core.fl := rfl
@[simp] theorem State.setDmem_core_dl (m : Mem) :
    (s.setDmem m).core.dl = s.core.dl := rfl
@[simp] theorem State.setDmem_core_el (m : Mem) :
    (s.setDmem m).core.el = s.core.el := rfl
@[simp] theorem State.setDmem_core_ml (m : Mem) :
    (s.setDmem m).core.ml = s.core.ml := rfl
@[simp] theorem State.setDmem_env_halt (m : Mem) :
    (s.setDmem m).env.halt = s.env.halt := rfl
@[simp] theorem State.setDmem_env_imem (m : Mem) :
    (s.setDmem m).env.imem = s.env.imem := rfl
@[simp] theorem State.setDmem_env_ext_dmem (m : Mem) :
    (s.setDmem m).env.ext.dmem = m := rfl
@[simp] theorem State.setDmem_env_ext_other (m : Mem) :
    (s.setDmem m).env.ext.other = s.env.ext.other := rfl
@[simp] theorem State.setDmem_table (m : Mem) :
    (s.setDmem m).table = s.table := rfl
@[simp] theorem State.setDmem_rst (m : Mem) :
    (s.setDmem m).rst = s.rst := rfl

@[simp] theorem State.setImem_core_x (m : Mem) :
    (s.setImem m).core.x = s.core.x := rfl
@[simp] theorem State.setImem_core_fl (m : Mem) :
    (s.setImem m).core.fl = s.core.fl := rfl
@[simp] theorem State.setImem_core_dl (m : Mem) :
    (s.setImem m).core.dl = s.core.dl := rfl
@[simp] theorem State.setImem_core_el (m : Mem) :
    (s.setImem m).core.el = s.core.el := rfl
@[simp] theorem State.setImem_core_ml (m : Mem) :
    (s.setImem m).core.ml = s.core.ml := rfl
@[simp] theorem State.setImem_env_halt (m : Mem) :
    (s.setImem m).env.halt = s.env.halt := rfl
@[simp] theorem State.setImem_env_imem (m : Mem) :
    (s.setImem m).env.imem = m := rfl
@[simp] theorem State.setImem_env_ext_dmem (m : Mem) :
    (s.setImem m).env.ext.dmem = s.env.ext.dmem := rfl
@[simp] theorem State.setImem_env_ext_other (m : Mem) :
    (s.setImem m).env.ext.other = s.env.ext.other := rfl
@[simp] theorem State.setImem_table (m : Mem) :
    (s.setImem m).table = s.table := rfl
@[simp] theorem State.setImem_rst (m : Mem) :
    (s.setImem m).rst = s.rst := rfl

@[simp] theorem beforeExecute_core_x :
    (beforeExecute s).core.x = installPending s.core.x s.core.ml.dest s.core.ml.result := rfl
@[simp] theorem beforeExecute_core_fl :
    (beforeExecute s).core.fl = s.core.fl := rfl
@[simp] theorem beforeExecute_core_dl :
    (beforeExecute s).core.dl = s.core.dl := rfl
@[simp] theorem beforeExecute_core_el :
    (beforeExecute s).core.el = s.core.el := rfl
@[simp] theorem beforeExecute_core_ml :
    (beforeExecute s).core.ml = ⟨s.core.el.common, s.core.el.dest, s.core.el.result⟩ := rfl
@[simp] theorem beforeExecute_env_halt :
    (beforeExecute s).env.halt = s.env.halt := rfl
@[simp] theorem beforeExecute_env_imem :
    (beforeExecute s).env.imem = s.env.imem := rfl
@[simp] theorem beforeExecute_env_ext_dmem :
    (beforeExecute s).env.ext.dmem = s.env.ext.dmem := rfl
@[simp] theorem beforeExecute_env_ext_other :
    (beforeExecute s).env.ext.other = s.env.ext.other := rfl
@[simp] theorem beforeExecute_table :
    (beforeExecute s).table = s.table := rfl
@[simp] theorem beforeExecute_rst :
    (beforeExecute s).rst = s.rst := rfl

@[simp] theorem afterExecute_core_x :
    (afterExecute s).core.x = s.core.x := rfl
@[simp] theorem afterExecute_core_fl :
    (afterExecute s).core.fl = ⟨⟨s.core.fl.pc⟩, nextPc s.core.fl.pc, readWord s.env.imem s.core.fl.pc.toNat⟩ := by
  simp [afterExecute, instructionFetch, registerFetch]
@[simp] theorem afterExecute_core_dl :
    (afterExecute s).core.dl = ⟨s.core.fl.common, descriptorFor s.table s.core.fl.iw, s.core.fl.iw⟩ := rfl
@[simp] theorem afterExecute_core_el :
    (afterExecute s).core.el = s.core.el := rfl
@[simp] theorem afterExecute_core_ml :
    (afterExecute s).core.ml = s.core.ml := rfl
@[simp] theorem afterExecute_env_halt :
    (afterExecute s).env.halt = s.env.halt := rfl
@[simp] theorem afterExecute_env_imem :
    (afterExecute s).env.imem = s.env.imem := rfl
@[simp] theorem afterExecute_env_ext_dmem :
    (afterExecute s).env.ext.dmem = s.env.ext.dmem := rfl
@[simp] theorem afterExecute_env_ext_other :
    (afterExecute s).env.ext.other = s.env.ext.other := rfl
@[simp] theorem afterExecute_table :
    (afterExecute s).table = s.table := rfl
@[simp] theorem afterExecute_rst :
    (afterExecute s).rst = s.rst := rfl

@[simp] theorem resetEdge_core_x :
    (resetEdge s).core.x = s.core.x := rfl
@[simp] theorem resetEdge_core_fl :
    (resetEdge s).core.fl = ⟨⟨0⟩, 0, 0⟩ := rfl
@[simp] theorem resetEdge_core_dl :
    (resetEdge s).core.dl = ⟨⟨0⟩, resetDescriptor s.table, 0⟩ := rfl
@[simp] theorem resetEdge_core_el :
    (resetEdge s).core.el = ⟨⟨0⟩, 0, 0⟩ := rfl
@[simp] theorem resetEdge_core_ml :
    (resetEdge s).core.ml = ⟨⟨0⟩, 0, 0⟩ := rfl
@[simp] theorem resetEdge_env_halt :
    (resetEdge s).env.halt = s.env.halt := rfl
@[simp] theorem resetEdge_env_imem :
    (resetEdge s).env.imem = s.env.imem := rfl
@[simp] theorem resetEdge_env_ext_dmem :
    (resetEdge s).env.ext.dmem = s.env.ext.dmem := rfl
@[simp] theorem resetEdge_env_ext_other :
    (resetEdge s).env.ext.other = s.env.ext.other := rfl
@[simp] theorem resetEdge_table :
    (resetEdge s).table = s.table := rfl
@[simp] theorem resetEdge_rst :
    (resetEdge s).rst = s.rst := rfl

/-- Two states with equal fields are equal. -/
theorem State.ext_fields {s t : State} (hc : s.core = t.core) (he : s.env = t.env) (ht : s.table = t.table)
    (hr : s.rst = t.rst) : s = t := by
  cases s
  cases t
  simp_all

end Sys2Proof.Machine
end

