-- ==== Sys2Proof/Laws/Execute.lean ====
section
/-! SUPPORT. What EX does, said once: its inputs and its answer for each form of a handler's outputs, and what no
handler can change. -/

namespace Sys2Proof.Machine

variable {rs rt : RegIdx} {h : MachineHandler} {s t : State}

/-- What a handler is given in a state whose slot 0 is zero (R127, R130). -/
def State.input (s : State) (rs rt : RegIdx) : Input :=
  { a := s.operand rs, b := s.operand rt, pc := s.core.dl.common.pc, x := s.core.x, env := s.env }

theorem beforeHandler_eq (h0 : s.ZeroReg) : beforeHandler s.core = (s.setEl s.bubbleEl).core := by
  simp only [beforeHandler, restorePending_installPending h0, State.setEl, State.bubbleEl]

theorem handlerInput_eq (h0 : s.ZeroReg) (rs rt : RegIdx) :
    handlerInput rs rt s.core s.env = s.input rs rt := by
  simp only [handlerInput, beforeHandler_eq h0, State.setEl_core_x, readReg_installPending, State.input,
    State.operand, readOperand]

/-- EX in a state whose slot 0 is zero: the handler's outputs applied to the state with a bubble in `EL`. -/
theorem runHandler_eq (h0 : s.ZeroReg) :
    runHandler rs rt h s = s.finish (applyOutputs (h (s.input rs rt)) (s.setEl s.bubbleEl).core s.env) := by
  rw [runHandler, executeStage, handlerInput_eq h0, beforeHandler_eq h0]

theorem runHandler_nothing (h0 : s.ZeroReg) (hh : h (s.input rs rt) = (s.input rs rt).nothing) :
    runHandler rs rt h s = .next (s.setEl s.bubbleEl) := by
  rw [runHandler_eq h0, hh]
  rfl

theorem runHandler_writing {d : RegIdx} {v : Word} (h0 : s.ZeroReg)
    (hh : h (s.input rs rt) = (s.input rs rt).writing d v) :
    runHandler rs rt h s = .next (s.setEl (s.resultEl d v)) := by
  rw [runHandler_eq h0, hh]
  simp only [applyOutputs, HandlerIn.writing, applyRedirect, State.finish]
  simp [State.put, State.setEl, State.resultEl, State.bubbleEl, State.input]

theorem runHandler_redirecting {a : Nat} (h0 : s.ZeroReg)
    (hh : h (s.input rs rt) = (s.input rs rt).redirecting a) :
    runHandler rs rt h s = .next ((s.setEl s.bubbleEl).setFlPc (maskTarget 12 a)) := by
  rw [runHandler_eq h0, hh]
  rfl

theorem runHandler_updating {e : Env ExtState} (h0 : s.ZeroReg) (hh : h (s.input rs rt) = updating e) :
    runHandler rs rt h s = .next (s.put (s.setEl s.bubbleEl).core e) := by
  rw [runHandler_eq h0, hh]
  rfl

theorem runHandler_faulting {r : HandlerFault} (h0 : s.ZeroReg)
    (hh : h (s.input rs rt) = (s.input rs rt).faulting r) :
    runHandler rs rt h s = .fault (.handler r (s.setEl s.bubbleEl)) := by
  rw [runHandler_eq h0, hh]
  rfl

/-- What EX leaves alone whatever the handler is (R36, R133): `DL`, `ML`, and `FL` but for its next address. The register
file is the one after the restore, `EL` carries the instruction's address, and the environment is the handler's. -/
theorem runHandler_frame (hs : runHandler rs rt h s = .next t) :
    t.core.x = (beforeHandler s.core).x ∧ t.core.dl = s.core.dl ∧ t.core.ml = s.core.ml ∧
      t.core.fl.common = s.core.fl.common ∧ t.core.fl.iw = s.core.fl.iw ∧
      t.core.el.common = s.core.dl.common ∧ t.table = s.table ∧ t.rst = s.rst ∧
      (t.core.fl.pc = s.core.fl.pc ∨ ∃ a, t.core.fl.pc = maskTarget 12 a) ∧
      t.env = (h (handlerInput rs rt s.core s.env)).env := by
  rw [runHandler, executeStage] at hs
  generalize h (handlerInput rs rt s.core s.env) = out at hs ⊢
  obtain ⟨w, r, e, f⟩ := out
  cases f with
  | some f => simp [applyOutputs, State.finish] at hs
  | none =>
    cases w with
    | none =>
      simp only [applyOutputs, State.finish, Host.Outcome.next.injEq] at hs
      subst hs
      cases r <;> simp [applyRedirect, beforeHandler]
    | some p =>
      obtain ⟨d, v⟩ := p
      by_cases hd : d < 32
      · simp only [applyOutputs, dif_pos hd, State.finish, Host.Outcome.next.injEq] at hs
        subst hs
        cases r <;> simp [applyRedirect, beforeHandler]
      · simp [applyOutputs, hd, State.finish] at hs

/-- EX keeps a register file whose slot 0 is zero (R126). -/
theorem beforeHandler_x (h0 : s.ZeroReg) : (beforeHandler s.core).x = s.core.x := by
  rw [beforeHandler_eq h0, State.setEl_core_x]

/-- EX never refuses. -/
theorem runHandler_not_refused {r : Refusal} : runHandler rs rt h s ≠ .refused r := by
  rw [runHandler]
  generalize executeStage rs rt h s.core s.env = x
  cases x with
  | done c e => simp [State.finish]
  | stop r c e => cases r <;> simp [State.finish]

/-- An aligned data address leaves room for its four bytes in the data memory (R192). -/
theorem dmemAddr_lt {addr : Word} (h : wordAligned addr = true) : dmemAddr addr + 3 < 4096 := by
  simp only [wordAligned, decide_eq_true_eq] at h
  have h4 : addr.toNat % 4 = 0 := by
    have := congrArg BitVec.toNat h
    simpa [BitVec.extractLsb'_toNat] using this
  have hand : dmemAddr addr = addr.toNat % 4096 := by
    show (addr &&& 0xFFF#32).toNat = _
    rw [BitVec.toNat_and]
    exact Nat.and_two_pow_sub_one_eq_mod addr.toNat 12
  omega

end Sys2Proof.Machine
end

