-- ==== Sys2Proof/Laws/PerInstr.lean ====
section
/-! SUPPORT. The encoder puts each operand field where the spec's encodings have it: the fields read from an
instruction's word, under its own descriptor, are the instruction's again. One lemma per constructor. -/

namespace Sys2Proof

/-! A field read from a word put together by `encodeR` or `encodeI`, or from the words of `break` and `j`. -/

section fields

variable (op funct : BitVec 6) (rs rt rd : RegIdx) (sa : BitVec 5) (imm : BitVec 16) (code : BitVec 20) (target : BitVec 26)

@[simp] theorem opOf_encodeR : opOf (encodeR op rs rt rd sa funct) = op := by
  apply BitVec.eq_of_getLsbD_eq
  intro i hi
  simp [opOf, encodeR, hi]
  grind

@[simp] theorem rsOf_encodeR : rsOf (encodeR op rs rt rd sa funct) = rs := by
  have h : (encodeR op rs rt rd sa funct).extractLsb' 21 5 = regField rs := by
    apply BitVec.eq_of_getLsbD_eq
    intro i hi
    simp [encodeR, hi]
    grind
  exact congrArg BitVec.toFin h

@[simp] theorem rtOf_encodeR : rtOf (encodeR op rs rt rd sa funct) = rt := by
  have h : (encodeR op rs rt rd sa funct).extractLsb' 16 5 = regField rt := by
    apply BitVec.eq_of_getLsbD_eq
    intro i hi
    simp [encodeR, hi]
    grind
  exact congrArg BitVec.toFin h

@[simp] theorem rdOf_encodeR : rdOf (encodeR op rs rt rd sa funct) = rd := by
  have h : (encodeR op rs rt rd sa funct).extractLsb' 11 5 = regField rd := by
    apply BitVec.eq_of_getLsbD_eq
    intro i hi
    simp [encodeR, hi]
    grind
  exact congrArg BitVec.toFin h

@[simp] theorem saOf_encodeR : saOf (encodeR op rs rt rd sa funct) = sa := by
  apply BitVec.eq_of_getLsbD_eq
  intro i hi
  simp [saOf, encodeR, hi]
  grind

@[simp] theorem functOf_encodeR : functOf (encodeR op rs rt rd sa funct) = funct := by
  apply BitVec.eq_of_getLsbD_eq
  intro i hi
  simp [functOf, encodeR, hi]
  grind

@[simp] theorem opOf_encodeI : opOf (encodeI op rs rt imm) = op := by
  apply BitVec.eq_of_getLsbD_eq
  intro i hi
  simp [opOf, encodeI, hi]
  grind

@[simp] theorem rsOf_encodeI : rsOf (encodeI op rs rt imm) = rs := by
  have h : (encodeI op rs rt imm).extractLsb' 21 5 = regField rs := by
    apply BitVec.eq_of_getLsbD_eq
    intro i hi
    simp [encodeI, hi]
    grind
  exact congrArg BitVec.toFin h

@[simp] theorem rtOf_encodeI : rtOf (encodeI op rs rt imm) = rt := by
  have h : (encodeI op rs rt imm).extractLsb' 16 5 = regField rt := by
    apply BitVec.eq_of_getLsbD_eq
    intro i hi
    simp [encodeI, hi]
    grind
  exact congrArg BitVec.toFin h

@[simp] theorem immOf_encodeI : immOf (encodeI op rs rt imm) = imm := by
  apply BitVec.eq_of_getLsbD_eq
  intro i hi
  simp [immOf, encodeI, hi]
  grind

@[simp] theorem opOf_codeWord : opOf (op ++ code ++ funct) = op := by
  apply BitVec.eq_of_getLsbD_eq
  intro i hi
  simp [opOf, hi]
  grind

@[simp] theorem codeOf_codeWord : codeOf (op ++ code ++ funct) = code := by
  apply BitVec.eq_of_getLsbD_eq
  intro i hi
  simp [codeOf, hi]
  grind

@[simp] theorem functOf_codeWord : functOf (op ++ code ++ funct) = funct := by
  apply BitVec.eq_of_getLsbD_eq
  intro i hi
  simp [functOf, hi]
  grind

@[simp] theorem opOf_jumpWord : opOf (op ++ target) = op := by
  apply BitVec.eq_of_getLsbD_eq
  intro i hi
  simp [opOf, hi]
  grind

@[simp] theorem targetOf_jumpWord : targetOf (op ++ target) = target := by
  apply BitVec.eq_of_getLsbD_eq
  intro i hi
  simp [targetOf, hi]
  grind

end fields

/-- The fields of a well-formed instruction's word, read under the instruction's own descriptor, are the
instruction. -/
def Laws.FieldsOfWord.Statement (i : Instr) : Prop :=
  i.wellFormed = true → instrOf (descriptorOf i) (encode i) = i

namespace Laws.FieldsOfWord

theorem dispatch (d : Descriptor) (w : Word) : Statement (.dispatch d w) := by
  intro h
  cases d <;> first | rfl | simp [Instr.wellFormed, Descriptor.rowless] at h

theorem sll (rs rt rd : RegIdx) (sa : BitVec 5) : Statement (.sll rs rt rd sa) := by
  intro _
  simp [descriptorOf, encode, instrOf]

theorem addu (rs rt rd : RegIdx) (sa : BitVec 5) : Statement (.addu rs rt rd sa) := by
  intro _
  simp [descriptorOf, encode, instrOf]

theorem subu (rs rt rd : RegIdx) (sa : BitVec 5) : Statement (.subu rs rt rd sa) := by
  intro _
  simp [descriptorOf, encode, instrOf]

theorem or (rs rt rd : RegIdx) (sa : BitVec 5) : Statement (.or rs rt rd sa) := by
  intro _
  simp [descriptorOf, encode, instrOf]

theorem brk (code : BitVec 20) : Statement (.brk code) := by
  intro _
  simp [descriptorOf, encode, instrOf]

theorem j (target : BitVec 26) : Statement (.j target) := by
  intro _
  simp [descriptorOf, encode, instrOf]

theorem beq (rs rt : RegIdx) (imm : BitVec 16) : Statement (.beq rs rt imm) := by
  intro _
  simp [descriptorOf, encode, instrOf]

theorem bne (rs rt : RegIdx) (imm : BitVec 16) : Statement (.bne rs rt imm) := by
  intro _
  simp [descriptorOf, encode, instrOf]

theorem addiu (rs rt : RegIdx) (imm : BitVec 16) : Statement (.addiu rs rt imm) := by
  intro _
  simp [descriptorOf, encode, instrOf]

theorem lw (rs rt : RegIdx) (imm : BitVec 16) : Statement (.lw rs rt imm) := by
  intro _
  simp [descriptorOf, encode, instrOf]

theorem sw (rs rt : RegIdx) (imm : BitVec 16) : Statement (.sw rs rt imm) := by
  intro _
  simp [descriptorOf, encode, instrOf]

theorem illegal (w : Word) : Statement (.illegal w) := fun _ => rfl

end Laws.FieldsOfWord

end Sys2Proof
end

