-- ==== Sys2Proof/Laws/Step.lean ====
section
/-! SUPPORT. What a step can do, said once. -/

namespace Sys2Proof.Machine

variable {s t : State}

theorem valid_iff : s.core.valid = true ↔ s.core.fl.pc.toNat % 4 = 0 ∧ s.ZeroReg := by
  simp [CoreState.valid, State.ZeroReg]

/-- When EX runs, WB has just put slot 0 at zero (R160, R172). -/
theorem zeroReg_beforeExecute (s : State) : (beforeExecute s).ZeroReg := by
  simp [State.ZeroReg]

theorem step_reset (h : s.rst = true) : step s = .next (resetEdge s) := by
  simp [step, h]

theorem step_halted (h : s.rst = false) (hh : s.env.halt = true) : step s = .next s := by
  simp [step, h, hh]

theorem step_running (h : s.Running) : step s = runCycle s := by
  obtain ⟨h1, h2, h3⟩ := h
  simp [step, h1, h2, valid_iff.mpr h3]

/-- A running step whose EX completes. -/
theorem step_running_next {m : State} (h : s.Running) (hm : exec s.current (beforeExecute s) = .next m) :
    step s = .next (afterExecute m) := by
  rw [step_running h, runCycle, hm]

/-- Every way a step can answer a next state (R170, R180): a reset edge, a halted call, or a running call. -/
theorem step_next_cases (h : step s = .next t) :
    (s.rst = true ∧ t = resetEdge s) ∨ (s.rst = false ∧ s.env.halt = true ∧ t = s) ∨
      (s.Running ∧ ∃ m, exec s.current (beforeExecute s) = .next m ∧ t = afterExecute m) := by
  unfold step at h
  split at h
  · rename_i h1
    exact .inl ⟨h1, by simpa using h.symm⟩
  · rename_i h1
    have h1' : s.rst = false := by simpa using h1
    split at h
    · rename_i h2
      exact .inr (.inl ⟨h1', h2, by simpa using h.symm⟩)
    · rename_i h2
      split at h
      · rename_i h3
        refine .inr (.inr ⟨⟨h1', by simpa using h2, valid_iff.mp h3⟩, ?_⟩)
        unfold runCycle at h
        split at h
        · rename_i m hm
          exact ⟨m, hm, by simpa using h.symm⟩
        · simp at h
        · simp at h
      · simp at h

/-- Every way a step can fault (R223, R224): EX of a running call faults. -/
theorem step_fault_cases {f : Fault} (h : step s = .fault f) :
    s.Running ∧ exec s.current (beforeExecute s) = .fault f := by
  unfold step at h
  split at h
  · simp at h
  · rename_i h1
    split at h
    · simp at h
    · rename_i h2
      split at h
      · rename_i h3
        refine ⟨⟨by simpa using h1, by simpa using h2, valid_iff.mp h3⟩, ?_⟩
        unfold runCycle at h
        split at h
        · simp at h
        · rename_i g hg
          rw [hg]
          simpa using h
        · simp at h
      · simp at h

end Sys2Proof.Machine
end

