-- ==== Sys2Proof/Tests/Slice0.lean ====
section
/-! SUPPORT. Tests. The expected results are those of spec/95_test_vectors.md (named in each comment) or are computed by
hand from the rules; the witnesses show a state and operands that meet the hypotheses of each statement. -/

namespace Sys2Proof.Tests

open Sys2Proof.Machine

/-! Helpers. -/

def nextOr (d : State) (o : Host.Outcome State Fault Refusal) : State :=
  match o with
  | .next t => t
  | .fault _ => d
  | .refused _ => d

def isNext (o : Host.Outcome State Fault Refusal) : Bool :=
  match o with
  | .next _ => true
  | .fault _ => false
  | .refused _ => false

def faultOf (o : Host.Outcome State Fault Refusal) : Option Fault :=
  match o with
  | .next _ => none
  | .fault f => some f
  | .refused _ => none

def refusalOf (o : Host.Outcome State Fault Refusal) : Option Refusal :=
  match o with
  | .next _ => none
  | .fault _ => none
  | .refused r => some r

/-- The state after a step that answers one. -/
def after (s : State) : State := nextOr s (step s)

/-- The state after EX of an instruction that answers one. -/
def ran (i : Instr) (s : State) : State := nextOr s (exec i s)

theorem eq_next_nextOr {o : Host.Outcome State Fault Refusal} {d : State} (h : isNext o = true) :
    o = .next (nextOr d o) := by
  cases o <;> simp_all [isNext, nextOr]

/-- The reset state with registers and latches of a test's choice. -/
def mk (regs : List (RegIdx × Word)) (ml : MemLatch 32 32 12) (el : ExecLatch 32 32 12) : State :=
  { State.reset with
    core := { State.reset.core with
      x := regs.foldl (fun x p => writeReg x p.1 p.2) State.reset.core.x
      ml := ml
      el := el } }

/-- `x1 = 5`, `x2 = 7`, and no pending write. -/
def s57 : State := mk [(1, 5), (2, 7)] ⟨⟨0⟩, 0, 0⟩ ⟨⟨0⟩, 0, 0x55⟩

/-- `s57` with `dmem[8..11] = 00 00 12 34`. -/
def sMem : State := s57.setDmem [(10, 0x12), (11, 0x34)]

/-- `s57` with an instruction in `DL` at an address of its own, and `FL.pc` at another. -/
def sAt (pc flPc : BitVec 12) : State :=
  { s57 with core := { s57.core with
      dl := { s57.core.dl with common := ⟨pc⟩ }
      fl := { common := ⟨flPc - 4⟩, pc := flPc, iw := 0x00221821 } } }

/-! Well-formedness: each check refuses an ill-formed term. -/

/-- The word of `addu r3, r1, r2` is no ILLEGAL word. -/
theorem test_illegal_with_a_row_is_ill_formed : (Instr.illegal 0x00221821).wellFormed = false := by decide
theorem test_illegal_without_a_row_is_well_formed : (Instr.illegal 0xFC000000).wellFormed = true := by decide
/-- A descriptor with a row of its own does not stand under DISPATCH. -/
theorem test_dispatch_of_a_row_is_ill_formed : (Instr.dispatch .addu 0x00221821).wellFormed = false := by decide
theorem test_dispatch_of_zero_is_well_formed : (Instr.dispatch .zero 0).wellFormed = true := by decide

/-! Decoding: words written out bit by bit from the encodings of 44_reference_handlers.md, as the bytes of the
instruction memory (R52). -/

/-- V-H1: `000000 00000 00010 00101 00100 000000`. -/
theorem test_decode_sll : decodeBytes [0b00000000, 0b00000010, 0b00101001, 0b00000000] = .ok (.sll 0 2 5 4, []) := by decide
/-- V-H14: `000000 cccccccccccccccccccc 001101`. -/
theorem test_decode_break : decodeBytes [0b00000000, 0b00000000, 0b00000000, 0b00001101] = .ok (.brk 0, []) := by decide
/-- The code is `iw[25:6]`. -/
theorem test_decode_break_code : decodeBytes [0x03, 0xFF, 0xFF, 0xCD] = .ok (.brk 0xFFFFF, []) := by decide
/-- R194's example: `000000 00001 00010 00011 00000 100001`. -/
theorem test_decode_addu : decodeBytes [0b00000000, 0b00100010, 0b00011000, 0b00100001] = .ok (.addu 1 2 3 0, []) := by decide
/-- V-H3: `000000 00001 00010 00100 00000 100011`. -/
theorem test_decode_subu : decodeBytes [0b00000000, 0b00100010, 0b00100000, 0b00100011] = .ok (.subu 1 2 4 0, []) := by decide
/-- V-H4: `000000 00001 00010 00110 00000 100101`. -/
theorem test_decode_or : decodeBytes [0b00000000, 0b00100010, 0b00110000, 0b00100101] = .ok (.or 1 2 6 0, []) := by decide
/-- V-H13: `000010 gggggggggggggggggggggggggg`. -/
theorem test_decode_j : decodeBytes [0b00001000, 0b00000000, 0b00000000, 0b00010000] = .ok (.j 0x10, []) := by decide
/-- V-H12: `000100 00000 00000 1111111111111110`. -/
theorem test_decode_beq : decodeBytes [0b00010000, 0b00000000, 0b11111111, 0b11111110] = .ok (.beq 0 0 0xFFFE, []) := by decide
/-- V-H10: `000101 00001 00000 1111111111111101`. -/
theorem test_decode_bne : decodeBytes [0b00010100, 0b00100000, 0b11111111, 0b11111101] = .ok (.bne 1 0 0xFFFD, []) := by decide
/-- V-H5: `001001 00001 00001 1111111111111111`. -/
theorem test_decode_addiu : decodeBytes [0b00100100, 0b00100001, 0b11111111, 0b11111111] = .ok (.addiu 1 1 0xFFFF, []) := by decide
/-- V-H7: `100011 00000 00100 0000000000001000`. -/
theorem test_decode_lw : decodeBytes [0b10001100, 0b00000100, 0b00000000, 0b00001000] = .ok (.lw 0 4 8, []) := by decide
/-- V-H8: `101011 00000 00001 0000000000001000`. -/
theorem test_decode_sw : decodeBytes [0b10101100, 0b00000001, 0b00000000, 0b00001000] = .ok (.sw 0 1 8, []) := by decide
/-- V-H15: `op = 0x3F`. -/
theorem test_decode_illegal : decodeBytes [0xFC, 0, 0, 0] = .ok (.illegal 0xFC000000, []) := by decide
/-- R191: `op = 0` with a function number outside the table. -/
theorem test_decode_illegal_funct : decode 0x00000001 = .illegal 0x00000001 := by decide
/-- DISPATCH: an external decoder's descriptor stands beside the whole word. -/
theorem test_decode_dispatch :
    instrOf (descriptorFor .external 0x00221821) 0x00221821 =
      .dispatch (.external (Config.extDecode 0x00221821)) 0x00221821 := rfl
/-- Fewer than four bytes are no word (R70). -/
theorem test_decode_truncated : decodeBytes [0x00, 0x22, 0x18] = .error .truncated := by decide
/-- The opcode table's numbering: bit 0 is the least significant bit of the word. -/
theorem test_decodeTableWord : decodeTableWord 32 0x2421FFFF = some (.addiu 1 1 0xFFFF) := by decide
theorem test_decodeTableWord_too_long : decodeTableWord 33 0 = none := by decide

/-! The stages (95_test_vectors.md, Part 2). -/

/-- V-IF1. -/
theorem test_fetch :
    (instructionFetch [(17, 0x22), (18, 0x18), (19, 0x21)] (sAt 0 0x010).core).fl = ⟨⟨0x010⟩, 0x014, 0x00221821⟩ := by decide
/-- V-IF2: the window wraps. -/
theorem test_fetch_wraps : (instructionFetch [(0xFFF, 0x0D)] (sAt 0 0xFFC).core).fl = ⟨⟨0xFFC⟩, 0x000, 0x0000000D⟩ := by decide
/-- V-IF3: big-endian. -/
theorem test_fetch_big_endian : readWord [(0, 0x12), (1, 0x34), (2, 0x56), (3, 0x78)] 0 = 0x12345678 := by decide
/-- V-IF5 and V-EX16: a redirect's target is masked. -/
theorem test_redirect_masks : maskTarget 12 0x1234 = 0x234 ∧ maskTarget 12 0x1003 = 0x000 := by decide
/-- V-RD2: `decode(0)` is `SLL`, which is not `desc0`. -/
theorem test_decode_stage : (registerFetch fixtureDescriptor State.reset.core).dl = ⟨⟨0⟩, .sll, 0⟩ := by decide
/-- V-RD3: an illegal word is no fault. -/
theorem test_decode_stage_illegal :
    (registerFetch fixtureDescriptor { State.reset.core with fl := ⟨⟨0x020⟩, 0x024, 0xFC000000⟩ }).dl =
      ⟨⟨0x020⟩, .illegal, 0xFC000000⟩ := by decide
/-- V-EX2: `rs` is forwarded. -/
theorem test_forward_rs :
    ((mk [(1, 5), (2, 7)] ⟨⟨0⟩, 1, 9⟩ ⟨⟨0⟩, 0, 0⟩).operand 1, (mk [(1, 5), (2, 7)] ⟨⟨0⟩, 1, 9⟩ ⟨⟨0⟩, 0, 0⟩).operand 2) =
      (9, 7) := by decide
/-- V-EX5: a pending write of a nonzero value to slot 0 is not forwarded. -/
theorem test_forward_zero :
    (handlerInput 0 0 (mk [] ⟨⟨0⟩, 0, 0xDEAD⟩ ⟨⟨0⟩, 0, 0⟩).core State.reset.env).a = 0 := by decide
/-- V-EX7: the younger value wins, and the file keeps the committed one. -/
theorem test_forward_younger :
    (handlerInput 5 0 (mk [(5, 0x11)] ⟨⟨0⟩, 5, 0x22⟩ ⟨⟨0⟩, 0, 0⟩).core State.reset.env).a = 0x22 ∧
      readReg (beforeHandler (mk [(5, 0x11)] ⟨⟨0⟩, 5, 0x22⟩ ⟨⟨0⟩, 0, 0⟩).core).x 5 = 0x11 := by decide
/-- V-EX12: a destination at or above `NREGS` stops the call. -/
theorem test_dest_out_of_range :
    executeStage 0 0 (fun inp => { inp.nothing with write := some (32, 1) }) s57.core s57.env =
      .stop (.destOutOfRange 32) (s57.setEl s57.bubbleEl).core s57.env := by decide
/-- R224 with `NREGS = 8` and `XLEN = 64`: destination 7 is in the file, and 8 is not. -/
theorem test_nregs_is_a_parameter :
    let c : CoreState 8 64 32 12 Descriptor :=
      ⟨Vector.replicate 8 0, ⟨⟨0⟩, 0, 0⟩, ⟨⟨0⟩, .zero, 0⟩, ⟨⟨0⟩, 0, 0⟩, ⟨⟨0⟩, 0, 0⟩⟩
    executeStage 0 0 (fun inp => { inp.nothing with write := some (8, 1) }) c s57.env =
        .stop (.destOutOfRange 8) c s57.env ∧
      executeStage 0 0 (fun inp => { inp.nothing with write := some (7, 1) }) c s57.env =
        .done { c with el := ⟨⟨0⟩, 7, 1⟩ } s57.env := by decide
/-- V-DF2: DF copies a stale result with its destination 0. -/
theorem test_data_fetch : (dataFetch (mk [] ⟨⟨0⟩, 3, 1⟩ ⟨⟨0x004⟩, 0, 0x1234⟩).core).ml = ⟨⟨0x004⟩, 0, 0x1234⟩ := by decide
/-- V-WB1 and V-WB2. -/
theorem test_writeback : readReg (writeback (mk [] ⟨⟨0⟩, 3, 12⟩ ⟨⟨0⟩, 0, 0⟩).core).x 3 = 12 := by decide
theorem test_writeback_zero :
    (writeback (mk [(1, 5)] ⟨⟨0⟩, 0, 0xDEAD⟩ ⟨⟨0⟩, 0, 0⟩).core).x = (mk [(1, 5)] ⟨⟨0⟩, 0, 0⟩ ⟨⟨0⟩, 0, 0⟩).core.x := by decide

/-! The instructions (95_test_vectors.md, V-H1 to V-H15), one or two for each. -/

/-- V-H1, with `b = 7`: `7 << 4`. -/
theorem test_sll : (ran (.sll 0 2 5 4) s57).core.el = ⟨⟨0⟩, 5, 0x70⟩ := by decide
/-- V-EX10: `addu r3, r1, r2` with 5 and 7, over a stale result. -/
theorem test_addu : (ran (.addu 1 2 3 0) s57).core.el = ⟨⟨0⟩, 3, 12⟩ := by decide
/-- V-H2: the sum wraps. -/
theorem test_addu_wraps :
    (ran (.addu 1 2 3 0) (mk [(1, 0xFFFFFFFF), (2, 1)] ⟨⟨0⟩, 0, 0⟩ ⟨⟨0⟩, 0, 0⟩)).core.el = ⟨⟨0⟩, 3, 0⟩ := by decide
/-- V-H3. -/
theorem test_subu : (ran (.subu 1 2 4 0) s57).core.el = ⟨⟨0⟩, 4, 0xFFFFFFFE⟩ := by decide
/-- V-H4. -/
theorem test_or : (ran (.or 1 2 6 0) s57).core.el = ⟨⟨0⟩, 6, 7⟩ := by decide
/-- V-H5, with `a = 0`: adds -1. -/
theorem test_addiu : (ran (.addiu 3 1 0xFFFF) s57).core.el = ⟨⟨0⟩, 1, 0xFFFFFFFF⟩ := by decide
/-- V-H7. -/
theorem test_lw : (ran (.lw 0 4 8) sMem).core.el = ⟨⟨0⟩, 4, 0x1234⟩ := by decide
/-- V-H9 and V-EX13: a misaligned load faults, with a bubble in `EL` and nothing else changed. -/
theorem test_lw_misaligned :
    faultOf (exec (.lw 0 4 2) sMem) = some (.handler .fixtureMisaligned (sMem.setEl ⟨⟨0⟩, 0, 0x55⟩)) := by decide
/-- V-H8, with `b = 0x1234` forwarded. -/
theorem test_sw :
    (ran (.sw 0 1 8) (mk [(1, 5)] ⟨⟨0⟩, 1, 0x1234⟩ ⟨⟨0⟩, 0, 0⟩)).env.ext.dmem = [(10, 0x12), (11, 0x34)] := by decide
theorem test_sw_misaligned :
    faultOf (exec (.sw 1 2 0) s57) = some (.handler .fixtureMisaligned (s57.setEl ⟨⟨0⟩, 0, 0x55⟩)) := by decide
/-- V-H12: `beq r0, r0, -2` at 0 redirects to `0xFFFFFFFC`, masked to `0xFFC`. -/
theorem test_beq : (ran (.beq 0 0 0xFFFE) s57).core.fl.pc = 0xFFC := by decide
theorem test_beq_not_taken : (ran (.beq 1 2 0xFFFE) (sAt 0x014 0x01C)).core.fl.pc = 0x01C := by decide
/-- V-H10: at `0x014`, `bne` with -3 redirects to `0x00C`. -/
theorem test_bne : (ran (.bne 1 0 0xFFFD) (sAt 0x014 0x01C)).core.fl.pc = 0x00C := by decide
/-- V-H11. -/
theorem test_bne_not_taken : (ran (.bne 0 0 0xFFFD) (sAt 0x014 0x01C)).core.fl.pc = 0x01C := by decide
/-- V-H13 and V-EX15. -/
theorem test_j : (ran (.j 0x10) s57).core.fl.pc = 0x040 ∧ (ran (.j 0x3FE) s57).core.fl.pc = 0xFF8 := by decide
/-- V-H14, and V-EX11's stale result. -/
theorem test_break : (ran (.brk 0) s57).env.halt = true ∧ (ran (.brk 0) s57).core.el = ⟨⟨0⟩, 0, 0x55⟩ := by decide
/-- V-H15. -/
theorem test_illegal : ran (.illegal 0xFC000000) s57 = s57.setEl ⟨⟨0⟩, 0, 0x55⟩ := by decide
/-- V-EX14: `ZERO` under DISPATCH. -/
theorem test_dispatch_zero : ran (.dispatch .zero 0) s57 = s57.setEl ⟨⟨0⟩, 0, 0x55⟩ := by decide
/-- DISPATCH of a fixture descriptor is that row's instruction (R76). -/
theorem test_dispatch_addu : ran (.dispatch .addu 0x00221821) s57 = ran (.addu 1 2 3 0) s57 := by decide

/-! The clock driver (V-CD1 to V-CD6). -/

/-- V-CD5: the first call after reset. -/
theorem test_first_call :
    (after (State.reset.setImem [(3, 0x0D)])).core.dl = ⟨⟨0⟩, .sll, 0⟩ ∧
      (after (State.reset.setImem [(3, 0x0D)])).core.fl = ⟨⟨0⟩, 4, 0x0000000D⟩ := by decide
/-- V-CD1. -/
theorem test_halted : after (sMem.setHalt true) = sMem.setHalt true := by decide
/-- V-CD2: `break`'s own cycle still runs RD and IF. -/
theorem test_break_cycle :
    (after ((sAt 0x020 0x028).placeWord 0x0000000D)).env.halt = true ∧
      (after ((sAt 0x020 0x028).placeWord 0x0000000D)).core.dl = ⟨⟨0x024⟩, .addu, 0x00221821⟩ := by decide
/-- V-CD4: the reset edge leaves registers and environment. -/
theorem test_reset_edge :
    (after (hostSetReset sMem true)).core.el = ⟨⟨0⟩, 0, 0⟩ ∧ (after (hostSetReset sMem true)).core.x = sMem.core.x ∧
      (after (hostSetReset sMem true)).env = sMem.env := by decide
/-- V-CD6. -/
theorem test_invalid_state : refusalOf (step (sAt 0 0x002)) = some .invalidState := by decide
/-- W7: EX of the second `addu` reads the first one's result from `ML`. -/
theorem test_forwarding_step :
    (after ((mk [(1, 5), (2, 7)] ⟨⟨0⟩, 0, 0⟩ ⟨⟨0⟩, 4, 0xC⟩).placeWord 0x00842821)).core.el = ⟨⟨0⟩, 5, 0x18⟩ := by decide
/-- `withFetchWord`: the very next step runs the instruction (R197's example). -/
theorem test_withFetchWord : (after (State.reset.withFetchWord 32 0x24010005)).core.el = ⟨⟨0⟩, 1, 5⟩ := by decide
/-- R254: a booted program's first word is at address 0, and halt is clear. -/
theorem test_boot :
    imemData (boot s57 [0x00221821] []) = 0x00221821 ∧ (boot s57 [0x00221821] []).env.halt = false ∧
      inspectReg (boot s57 [0x00221821] []) 1 = 5 := by decide
/-- R42: the handler's port shows the operands of the instruction in `DL`. -/
theorem test_handler_port : (handlerPort (s57.placeWord 0x00221821)).2.2.a = 5 := by decide
/-- A memory that a zero is written to keeps no entry for it. -/
theorem test_write_unlisted : Mem.write [(4, 1), (5, 2)] 4 0 = [(5, 2)] := by decide

/-! Witnesses: for each statement with hypotheses, a state and operands that meet them together, and for each of its
clauses a value that falls under it. -/

/-- `s57` with an instruction's word in `DL`. -/
def sDl (w : Word) : State := s57.placeWord w

/-- A program at address 0 after the reset of the latches, with `x1 = 5` and `x2 = 7`. -/
def sBoot (program : List Word) : State := boot s57 program []

/-- The same after `n` steps. -/
def stepped (n : Nat) (s : State) : State :=
  match n with
  | 0 => s
  | k + 1 => after (stepped k s)

theorem running_of {s : State} (h : s.rst = false ∧ s.env.halt = false ∧ s.core.fl.pc.toNat % 4 = 0 ∧
    readReg s.core.x 0 = 0) : s.Running := h

theorem step_after {s : State} (h : isNext (step s) = true) : step s = .next (after s) := eq_next_nextOr h

theorem exec_ran {i : Instr} {s : State} (h : isNext (exec i s) = true) : exec i s = .next (ran i s) :=
  eq_next_nextOr h

/-- The one hypothesis of SllWritesTheShiftedOperand, AdduWritesTheSum, SubuWritesTheDifference, OrWritesTheDisjunction, AddiuWritesTheSumWithTheImmediate, JRedirectsToTheTarget, BreakSetsHalt, IllegalDoesNothing, DispatchOfZeroDoesNothing, ExternalDispatchAppliesTheHandlersAnswer. -/
theorem witness_zeroReg : s57.ZeroReg := show readReg s57.core.x 0 = 0 by decide
theorem witness_inv : sMem.Inv := ⟨by decide, show readReg sMem.core.x 0 = 0 by decide, by decide, by decide⟩

theorem witness_DecodeOfEncodeIsTheInstruction :
    (Instr.illegal 0x00000001).wellFormed = true ∧ (Instr.illegal 0x00000001).hasFixtureRow = true ∧
      (Instr.sll 31 31 31 31).wellFormed = true ∧ (Instr.sll 31 31 31 31).hasFixtureRow = true := by decide

theorem witness_NextFetchAddressIsPlusFourInTheWindow :
    2 ≤ 12 ∧ (sAt 0 0xFFC).core.fl.pc.toNat % 4 = 0 ∧ (sAt 0 0).core.fl.pc.toNat % 4 = 0 := by decide

theorem witness_FetchWrapsAtTheTopOfTheWindow : 2 ≤ 12 ∧ (sAt 0 0xFFC).core.fl.pc.toNat = 2 ^ 12 - 4 := by decide

theorem witness_WritebackCommitsThePendingResult :
    readReg (mk [] ⟨⟨0⟩, 0, 0xDEAD⟩ ⟨⟨0⟩, 0, 0⟩).core.x 0 = 0 ∧
      (mk [] ⟨⟨0⟩, 0, 0xDEAD⟩ ⟨⟨0⟩, 0, 0⟩).core.ml.dest = 0 := by decide

theorem witness_OperandsAreForwarded : readReg (mk [] ⟨⟨0⟩, 31, 1⟩ ⟨⟨0⟩, 0, 0⟩).core.x 0 = 0 := by decide

/-- A handler of each kind that the four clauses name, at the boundary values 32 and 31 of the destination. -/
theorem witness_HandlerOutputsAreApplied (inp : Input) :
    readReg s57.core.x 0 = 0 ∧ (inp.faulting .fixtureMisaligned).fault = some .fixtureMisaligned ∧
      (inp.redirecting 0x1234).fault = none ∧ (inp.redirecting 0x1234).write = none ∧
      (inp.writing 31 1).fault = none ∧ (inp.writing 31 1).write = some ((31 : RegIdx).val, 1) ∧
      ({ inp.nothing with write := some (32, 1) } : Output).fault = none ∧
      ({ inp.nothing with write := some (32, 1) } : Output).write = some (32, 1) ∧ 32 ≤ 32 :=
  ⟨by decide, rfl, rfl, rfl, rfl, rfl, rfl, rfl, by decide⟩

theorem witness_RedirectIsFetchedInTheSameCycle : 2 ≤ 2 ∧ 2 ≤ 12 := by decide

theorem witness_InitializeZeroFillsTheLatches : (hostSetReset s57 true).rst = true := by decide

theorem witness_HaltedCallsChangeNothing : (s57.setHalt true).rst = false ∧ (s57.setHalt true).env.halt = true := by
  decide

/-- One state with a misaligned `FL.pc`, and one whose slot 0 is not zero. -/
theorem witness_InvalidStateIsRefused :
    ((sAt 0 0x002).rst = false ∧ (sAt 0 0x002).env.halt = false ∧ (sAt 0 0x002).core.fl.pc.toNat % 4 ≠ 0) ∧
      ((mk [(0, 1)] ⟨⟨0⟩, 0, 0⟩ ⟨⟨0⟩, 0, 0⟩).rst = false ∧ (mk [(0, 1)] ⟨⟨0⟩, 0, 0⟩ ⟨⟨0⟩, 0, 0⟩).env.halt = false ∧
        readReg (mk [(0, 1)] ⟨⟨0⟩, 0, 0⟩ ⟨⟨0⟩, 0, 0⟩).core.x 0 ≠ 0) := by decide

theorem witness_StepRunsTheDecodedInstruction :
    (sDl 0x00221821).Running ∧
      instrOf (sDl 0x00221821).core.dl.desc (sDl 0x00221821).core.dl.iw = .addu 1 2 3 0 :=
  ⟨running_of (by decide), by decide⟩

/-- `addu r3, r1, r2` at address 0. -/
theorem witness_FetchedBytesExecuteTwoCyclesLater :
    let s := sBoot [0x00221821]
    s.table = .fixture ∧ s.Running ∧ (stepped 1 s).Running ∧ (stepped 2 s).Running ∧
      step s = .next (stepped 1 s) ∧ step (stepped 1 s) = .next (stepped 2 s) ∧
      decodeBytes [(stepped 1 s).env.imem.read 0, (stepped 1 s).env.imem.read 1, (stepped 1 s).env.imem.read 2,
        (stepped 1 s).env.imem.read 3] = .ok (.addu 1 2 3 0, []) ∧
      (stepped 1 s).core.fl.common.pc.toNat = 0 :=
  ⟨rfl, running_of (by decide), running_of (by decide), running_of (by decide), step_after (by decide),
    step_after (by decide), by decide, by decide⟩

theorem witness_RunningStepMovesEveryLatch :
    (sDl 0x00221821).Running ∧ step (sDl 0x00221821) = .next (after (sDl 0x00221821)) ∧
      (sDl 0x00221821).core.dl.desc.mayRedirect = false :=
  ⟨running_of (by decide), step_after (by decide), by decide⟩

theorem witness_StepIsAdvanceOneCycle : s57.rst = false := by decide

theorem witness_EveryStepKeepsTheInvariant :
    sMem.Inv ∧ step sMem = .next (after sMem) := ⟨witness_inv, step_after (by decide)⟩

theorem witness_EveryStepKeepsDecoded :
    (sDl 0x00221821).Decoded ∧ State.reset.Decoded ∧ step (sDl 0x00221821) = .next (after (sDl 0x00221821)) :=
  ⟨.inl (by decide), .inr (by decide), step_after (by decide)⟩

theorem witness_ZeroRegisterReadsZero :
    s57.ZeroReg ∧ step s57 = .next (after s57) ∧ readReg s57.core.x 0 = 0 :=
  ⟨witness_zeroReg, step_after (by decide), by decide⟩

/-- One running state and one halted one. -/
theorem witness_OnlyWritebackChangesRegisters :
    (s57.rst = false ∧ s57.env.halt = false ∧ step s57 = .next (after s57)) ∧
      ((s57.setHalt true).rst = false ∧ (s57.setHalt true).env.halt = true ∧
        step (s57.setHalt true) = .next (after (s57.setHalt true))) :=
  ⟨⟨rfl, rfl, step_after (by decide)⟩, ⟨rfl, rfl, step_after (by decide)⟩⟩

theorem witness_CommonPcTravelsUnchanged :
    (sAt 0x014 0x01C).Running ∧ step (sAt 0x014 0x01C) = .next (after (sAt 0x014 0x01C)) :=
  ⟨running_of (by decide), step_after (by decide)⟩

theorem witness_ExecuteTouchesOnlyItsOutputs :
    s57.ZeroReg ∧ exec (.j 0x10) s57 = .next (ran (.j 0x10) s57) := ⟨witness_zeroReg, exec_ran (by decide)⟩

/-- Five running calls of a program whose first instruction writes `r3`. -/
theorem witness_FetchedInstructionCommitsFourCyclesLater :
    let s := sBoot [0x00221821]
    s.Running ∧ (stepped 1 s).Running ∧ (stepped 2 s).Running ∧ (stepped 3 s).Running ∧ (stepped 4 s).Running ∧
      step s = .next (stepped 1 s) ∧ step (stepped 1 s) = .next (stepped 2 s) ∧
      step (stepped 2 s) = .next (stepped 3 s) ∧ step (stepped 3 s) = .next (stepped 4 s) ∧
      step (stepped 4 s) = .next (stepped 5 s) ∧ (stepped 3 s).core.el.dest = 3 :=
  ⟨running_of (by decide), running_of (by decide), running_of (by decide), running_of (by decide),
    running_of (by decide), step_after (by decide), step_after (by decide), step_after (by decide),
    step_after (by decide), step_after (by decide), by decide⟩

/-- `addu r4, r1, r2` in `DL`, followed by an instruction that writes another register, and by one that writes `r4`
again. -/
def sRaw (next : Word) : State :=
  { sDl 0x00222021 with core := { (sDl 0x00222021).core with fl := ⟨⟨4⟩, 8, next⟩ } }

theorem witness_ReadAfterWriteSeesTheNewestValue :
    ((sRaw 0x00842821).Running ∧ step (sRaw 0x00842821) = .next (stepped 1 (sRaw 0x00842821)) ∧
      (stepped 1 (sRaw 0x00842821)).core.el.dest = 4 ∧ (stepped 1 (sRaw 0x00842821)).Running ∧
      step (stepped 1 (sRaw 0x00842821)) = .next (stepped 2 (sRaw 0x00842821)) ∧
      (stepped 2 (sRaw 0x00842821)).core.el.dest ≠ 4) ∧
    ((sRaw 0x00222023).Running ∧ step (sRaw 0x00222023) = .next (stepped 1 (sRaw 0x00222023)) ∧
      (stepped 1 (sRaw 0x00222023)).core.el.dest = 4 ∧ (stepped 1 (sRaw 0x00222023)).Running ∧
      step (stepped 1 (sRaw 0x00222023)) = .next (stepped 2 (sRaw 0x00222023)) ∧
      (stepped 2 (sRaw 0x00222023)).core.el.dest = 4) :=
  ⟨⟨running_of (by decide), step_after (by decide), by decide, running_of (by decide), step_after (by decide),
      by decide⟩,
    ⟨running_of (by decide), step_after (by decide), by decide, running_of (by decide), step_after (by decide),
      by decide⟩⟩

/-- Three steps after it, a reader of `r4` with two instructions between them that write other slots. -/
theorem witness_ReadAfterWriteAtADistance :
    let s := sRaw 0x00842821
    (∀ k, k < 3 → (stepped k s).Running ∧ step (stepped k s) = .next (stepped (k + 1) s)) ∧
      (stepped 1 s).core.el.dest = 4 ∧ (∀ k, 2 ≤ k → k ≤ 3 → (stepped k s).core.el.dest ≠ 4) := by
  refine ⟨fun k hk => ?_, by decide, fun k h2 h3 => ?_⟩
  · interval_cases k <;> exact ⟨running_of (by decide), step_after (by decide)⟩
  · interval_cases k <;> decide

/-- `j 0x40`, a taken `beq r0, r0, -2` and a taken `bne r1, r0, -3`, at address 0. -/
theorem witness_TakenTransferHasOneDelaySlot :
    ((sDl 0x08000010).Running ∧ (sDl 0x08000010).current = .j 0x10 ∧ (0x040 : BitVec 12) = BitVec.ofNat 12 (4 * 0x10)) ∧
    ((sDl 0x1000FFFE).Running ∧ (sDl 0x1000FFFE).current = .beq 0 0 0xFFFE) ∧
    ((sDl 0x1420FFFD).Running ∧ (sDl 0x1420FFFD).current = .bne 1 0 0xFFFD ∧
      (beforeExecute (sDl 0x1420FFFD)).operand 1 ≠ (beforeExecute (sDl 0x1420FFFD)).operand 0) :=
  ⟨⟨running_of (by decide), by decide, by decide⟩, ⟨running_of (by decide), by decide⟩,
    ⟨running_of (by decide), by decide, by decide⟩⟩

/-- `break` behind an instruction that writes `r6`. -/
def sBreak : State := (mk [] ⟨⟨0⟩, 0, 0⟩ ⟨⟨0⟩, 6, 1⟩).placeWord 0x0000000D

theorem witness_BreakFinishesItsCycleThenFreezes :
    sBreak.Running ∧ sBreak.current = .brk 0 ∧ sBreak.core.el.dest ≠ 0 ∧
      step (hostSetHalt (after sBreak) false) = .next (after (hostSetHalt (after sBreak) false)) :=
  ⟨running_of (by decide), by decide, by decide, step_after (by decide)⟩

theorem witness_FetchSeesTheCyclesOwnWrites :
    s57.Running ∧ exec s57.current (beforeExecute s57) = .next (ran s57.current (beforeExecute s57)) ∧
      step s57 = .next (after s57) :=
  ⟨running_of (by decide), exec_ran (by decide), step_after (by decide)⟩

theorem witness_FirstCyclesAfterReset :
    (sBoot [0x00221821]).Running ∧ (sBoot [0x00221821]).table = .fixture ∧
      (sBoot [0x00221821]).core = initializePipeline .zero (sBoot [0x00221821]).core :=
  ⟨running_of (by decide), by decide, by decide⟩

/-- A program and data at both ends of the data memory; an address behind the program, and one that no data names. -/
theorem witness_BootLoadsTheProgram :
    sMem.env.imem.wf 4096 = true ∧ sMem.env.ext.dmem.wf 4096 = true ∧ 4 * [(0x00221821 : Word)].length ≤ 4096 ∧
      4 * [(0x00221821 : Word)].length ≤ 4 ∧ ([(0, 1), (0xFFF, 2)] : List (BitVec 12 × Byte)).map Prod.fst = [0, 0xFFF] ∧
      ([0, 0xFFF] : List (BitVec 12)).Nodup ∧
      (∀ p ∈ ([(0, 1), (0xFFF, 2)] : List (BitVec 12 × Byte)), p.1.toNat ≠ 10) :=
  ⟨by decide, by decide, by decide, by decide, rfl, by simp, by simp⟩

/-- An aligned address at the top of the data memory, and a misaligned one. -/
theorem witness_LwLoadsTheBigEndianWord :
    sMem.ZeroReg ∧ (sMem.operand 0 + (0x0FFC : BitVec 16).signExtend 32).toNat % 4 = 0 ∧
      (sMem.operand 0 + (0x0FFD : BitVec 16).signExtend 32).toNat % 4 ≠ 0 :=
  ⟨witness_inv.2.1, by decide, by decide⟩

theorem witness_SwStoresTheBigEndianWord :
    sMem.ZeroReg ∧ sMem.env.ext.dmem.wf 4096 = true ∧
      (sMem.operand 0 + (0x0FFC : BitVec 16).signExtend 32).toNat % 4 = 0 ∧
      (sMem.operand 0 + (0x0FFF : BitVec 16).signExtend 32).toNat % 4 ≠ 0 :=
  ⟨witness_inv.2.1, by decide, by decide, by decide⟩

/-- Equal operands and different ones, for `beq` and `bne` alike. -/
theorem witness_BeqRedirectsWhenEqual :
    s57.ZeroReg ∧ s57.operand 1 = s57.operand 1 ∧ s57.operand 1 ≠ s57.operand 2 :=
  ⟨witness_zeroReg, rfl, by decide⟩
theorem witness_BneRedirectsWhenDifferent :
    s57.ZeroReg ∧ s57.operand 0 ≠ s57.operand 1 ∧ s57.operand 0 = s57.operand 31 :=
  ⟨witness_zeroReg, by decide, by decide⟩

/-- One instruction for each clause: no redirect, no halt, no write. -/
theorem witness_NonStoringInstructionsFrame :
    s57.ZeroReg ∧
      ((descriptorOf (.brk 0)).ofFixture = true ∧ descriptorOf (.brk 0) ≠ .sw ∧
        (descriptorOf (.brk 0)).mayRedirect = false ∧ (descriptorOf (.brk 0)).mayWrite = false ∧
        exec (.brk 0) s57 = .next (ran (.brk 0) s57)) ∧
      ((descriptorOf (.lw 0 4 8)).ofFixture = true ∧ descriptorOf (.lw 0 4 8) ≠ .sw ∧
        descriptorOf (.lw 0 4 8) ≠ .brk ∧ exec (.lw 0 4 8) s57 = .next (ran (.lw 0 4 8) s57)) :=
  ⟨witness_zeroReg, ⟨by decide, by decide, by decide, by decide, exec_ran (by decide)⟩,
    ⟨by decide, by decide, by decide, exec_ran (by decide)⟩⟩

/-- A store to the top of the data memory, with bytes on one side of it, and one in the middle. -/
theorem witness_SwFrame :
    sMem.ZeroReg ∧ sMem.env.ext.dmem.wf 4096 = true ∧
      exec (.sw 0 1 0x0FFC) sMem = .next (ran (.sw 0 1 0x0FFC) sMem) ∧
      dmemAddr (addImm (sMem.operand 0) 0x0FFC) = 4092 ∧
      exec (.sw 0 1 16) sMem = .next (ran (.sw 0 1 16) sMem) ∧ dmemAddr (addImm (sMem.operand 0) 16) = 16 :=
  ⟨witness_inv.2.1, by decide, exec_ran (by decide), by decide, exec_ran (by decide), by decide⟩

/-- Two aligned addresses that name the same word, and two that do not. -/
theorem witness_LoadAfterStore :
    sMem.env.ext.dmem.wf 4096 = true ∧ (0xFFC : Word).toNat % 4 = 0 ∧ (0xFFFFFFFC : Word).toNat % 4 = 0 ∧
      (0xFFFFFFFC : Word).toNat % 4096 = (0xFFC : Word).toNat % 4096 ∧ (0 : Word).toNat % 4 = 0 ∧
      (0 : Word).toNat % 4096 ≠ (0xFFC : Word).toNat % 4096 := by decide

theorem witness_FixtureEffectsAreConfined :
    (sDl 0x00221821).table = .fixture ∧ (sDl 0x00221821).Decoded ∧
      step (sDl 0x00221821) = .next (after (sDl 0x00221821)) ∧ (sDl 0x00221821).core.dl.desc ≠ .sw ∧
      (sDl 0x00221821).core.dl.desc ≠ .brk :=
  ⟨by decide, .inl (by decide), step_after (by decide), by decide, by decide⟩

/-- `lw r4, 2(r0)` in `DL` faults. -/
theorem witness_FixtureFaultsOnlyOnMisalignedAccess :
    (sDl 0x8C040002).table = .fixture ∧ (sDl 0x8C040002).Inv ∧ (sDl 0x8C040002).Decoded ∧
      (faultOf (step (sDl 0x8C040002))).isSome = true :=
  ⟨by decide, ⟨by decide, show readReg (sDl 0x8C040002).core.x 0 = 0 by decide, by decide, by decide⟩,
    .inl (by decide), by decide⟩

theorem witness_HostWritesLeaveTheCoreAlone :
    sMem.Inv ∧ hostSetHalt sMem true ∈ [hostSetReset sMem true, hostSetHalt sMem true, hostWriteImem sMem 0xFFF 1,
      hostWriteDmem sMem 0xFFF 1, hostSetOther sMem 1] := ⟨witness_inv, by simp⟩

end Sys2Proof.Tests
end

namespace Sys2Proof

/-! The source fields of the words of `break` and `j`, which lie in the code and in the target (R122). -/

section sourceFields

variable (op funct : BitVec 6) (code : BitVec 20) (target : BitVec 26)

@[simp] theorem rsOf_codeWord : rsOf (op ++ code ++ funct) = (code.extractLsb' 15 5).toFin := by
  refine congrArg BitVec.toFin (BitVec.eq_of_getLsbD_eq fun i hi => ?_)
  simp [hi]
  grind

@[simp] theorem rtOf_codeWord : rtOf (op ++ code ++ funct) = (code.extractLsb' 10 5).toFin := by
  refine congrArg BitVec.toFin (BitVec.eq_of_getLsbD_eq fun i hi => ?_)
  simp [hi]
  grind

@[simp] theorem rsOf_jumpWord : rsOf (op ++ target) = (target.extractLsb' 21 5).toFin := by
  refine congrArg BitVec.toFin (BitVec.eq_of_getLsbD_eq fun i hi => ?_)
  simp [hi]
  grind

@[simp] theorem rtOf_jumpWord : rtOf (op ++ target) = (target.extractLsb' 16 5).toFin := by
  refine congrArg BitVec.toFin (BitVec.eq_of_getLsbD_eq fun i hi => ?_)
  simp [hi]
  grind

end sourceFields

end Sys2Proof

namespace Sys2Proof.Machine

/-! Every instruction is the dispatch of its own word (R76), so a fact about EX is proved once, for every handler. -/

theorem exec_eq_execDispatch (i : Instr) (s : State) : exec i s = execDispatch (descriptorOf i) (encode i) s := by
  cases i with
  | dispatch | illegal => rfl
  | brk | j => simp [exec, execBreak, execJ, execDispatch, handlerFor, descriptorOf, encode]
  | sll | addu | subu | or =>
    simp [exec, execSll, execAddu, execSubu, execOr, execDispatch, handlerFor, descriptorOf, encode]
  | beq | bne | addiu | lw | sw =>
    simp [exec, execBeq, execBne, execAddiu, execLw, execSw, execDispatch, handlerFor, descriptorOf, encode]

/-- EX of an instruction is `runHandler` over the fields and the handler of its word (R120, R127). -/
theorem exec_eq_runHandler (i : Instr) (s : State) :
    exec i s = runHandler (rsOf (encode i)) (rtOf (encode i)) (handlerFor (descriptorOf i) (encode i)) s :=
  exec_eq_execDispatch i s

/-! What EX leaves alone. -/

/-- `t` differs from `s` in no more than EX may change (R36, R133): of `FL` the next fetch address, which is the old one
or a masked redirect target (R131), of `EL` the destination and the result, and the environment. -/
structure ExecFrame (s t : State) : Prop where
  x        : t.core.x = s.core.x
  dl       : t.core.dl = s.core.dl
  ml       : t.core.ml = s.core.ml
  flCommon : t.core.fl.common = s.core.fl.common
  flIw     : t.core.fl.iw = s.core.fl.iw
  flPc     : t.core.fl.pc = s.core.fl.pc ∨ ∃ a, t.core.fl.pc = maskTarget 12 a
  elCommon : t.core.el.common = s.core.dl.common
  table    : t.table = s.table
  rst      : t.rst = s.rst

variable {i : Instr} {s t : State}

theorem exec_frame (h0 : s.ZeroReg) (h : exec i s = .next t) : ExecFrame s t := by
  rw [exec_eq_runHandler] at h
  obtain ⟨hx, hdl, hml, hcommon, hiw, hel, htable, hrst, hpc, -⟩ := runHandler_frame h
  exact ⟨hx.trans (beforeHandler_x h0), hdl, hml, hcommon, hiw, hpc, hel, htable, hrst⟩

/-- The environment after EX is the one the handler answers (R132). -/
theorem exec_env (h0 : s.ZeroReg) (h : exec i s = .next t) :
    t.env = (handlerFor (descriptorOf i) (encode i) (s.input (rsOf (encode i)) (rtOf (encode i)))).env := by
  rw [exec_eq_runHandler] at h
  obtain ⟨-, -, -, -, -, -, -, -, -, henv⟩ := runHandler_frame h
  rwa [handlerInput_eq h0] at henv

/-! The canonical form of both memories through EX: the handlers of `sw` and of an external table are the only ones
that write a memory. -/

/-- Both 4096-byte memories of an environment are in canonical form (R51, R190). -/
def Env.Canonical (e : Env ExtState) : Prop := e.imem.wf 4096 = true ∧ e.ext.dmem.wf 4096 = true

theorem inv_iff : s.Inv ↔ s.core.fl.pc.toNat % 4 = 0 ∧ s.ZeroReg ∧ s.env.Canonical := Iff.rfl

/-- A handler answers a canonical environment whenever it is given one. -/
def KeepsCanonical (h : MachineHandler) : Prop := ∀ inp : Input, inp.env.Canonical → (h inp).env.Canonical

theorem keepsCanonical_of_env_eq {h : MachineHandler} (hh : ∀ inp, (h inp).env = inp.env) : KeepsCanonical h :=
  fun inp hc => (hh inp).symm ▸ hc

theorem handleBeq_env (imm : BitVec 16) (inp : Input) : (handleBeq imm inp).env = inp.env := by
  unfold handleBeq
  split <;> rfl

theorem handleBne_env (imm : BitVec 16) (inp : Input) : (handleBne imm inp).env = inp.env := by
  unfold handleBne
  split <;> rfl

theorem handleLw_env (rt : RegIdx) (imm : BitVec 16) (inp : Input) : (handleLw rt imm inp).env = inp.env := by
  unfold handleLw
  split <;> rfl

theorem handleBreak_keepsCanonical : KeepsCanonical handleBreak := fun _ hc => hc

/-- A store is made at an aligned address only, where its four bytes fit in the data memory (R192). -/
theorem handleSw_keepsCanonical (imm : BitVec 16) : KeepsCanonical (handleSw imm) := by
  intro inp hc
  unfold handleSw
  split
  · rename_i haligned
    exact ⟨hc.1, writeWord_wf hc.2 (dmemAddr_lt haligned)⟩
  · exact hc

/-- Whatever the external table answers, its effects on the memories are lists of byte writes (log entry 11). -/
theorem handleExternal_keepsCanonical (bits : BitVec 64) (w : Word) : KeepsCanonical (handleExternal bits w) :=
  fun _ hc => ⟨writeBytes_wf _ hc.1, writeBytes_wf _ hc.2⟩

theorem handlerFor_keepsCanonical (d : Descriptor) (w : Word) : KeepsCanonical (handlerFor d w) := by
  cases d with
  | zero | sll | addu | subu | or | j | addiu | illegal => exact keepsCanonical_of_env_eq fun _ => rfl
  | beq => exact keepsCanonical_of_env_eq (handleBeq_env _)
  | bne => exact keepsCanonical_of_env_eq (handleBne_env _)
  | lw => exact keepsCanonical_of_env_eq (handleLw_env _ _)
  | brk => exact handleBreak_keepsCanonical
  | sw => exact handleSw_keepsCanonical _
  | external bits => exact handleExternal_keepsCanonical bits w

theorem exec_keeps_canonical (h0 : s.ZeroReg) (h : exec i s = .next t) (hc : s.env.Canonical) : t.env.Canonical := by
  rw [exec_env h0 h]
  exact handlerFor_keepsCanonical _ _ _ hc

/-! A running step, taken apart. -/

/-- A running step that answers a next state is WB and DF, an EX that completes, then RD and IF (R172). -/
theorem step_running_inv (hr : s.Running) (h : step s = .next t) :
    ∃ m, exec s.current (beforeExecute s) = .next m ∧ ExecFrame (beforeExecute s) m ∧ t = afterExecute m := by
  obtain ⟨hrst, hhalt, -, -⟩ := hr
  obtain ⟨h1, -⟩ | ⟨-, h2, -⟩ | ⟨-, m, hm, rfl⟩ := step_next_cases h
  · simp [hrst] at h1
  · simp [hhalt] at h2
  · exact ⟨m, hm, exec_frame (zeroReg_beforeExecute s) hm, rfl⟩

/-- A running cycle depends on nothing but the instruction in `DL` and the state in which EX starts. -/
theorem runCycle_congr (hc : s.current = t.current) (hb : beforeExecute s = beforeExecute t) :
    runCycle s = runCycle t := by
  simp only [runCycle, hc, hb]

theorem step_keeps_zeroReg (h0 : s.ZeroReg) (h : step s = .next t) : t.ZeroReg := by
  obtain ⟨-, rfl⟩ | ⟨-, -, rfl⟩ | ⟨hr, -⟩ := step_next_cases h
  · exact h0
  · exact h0
  · obtain ⟨m, -, hframe, rfl⟩ := step_running_inv hr h
    rw [State.ZeroReg, afterExecute_core_x, hframe.x]
    exact zeroReg_beforeExecute s

/-- Settles O22: a reset edge clears `FL.pc` and leaves the rest, a halted call leaves everything, and in a running call
IF masks `FL.pc`, WB clears slot 0, and EX calls a handler that keeps both memories canonical. -/
theorem everyStepKeepsTheInvariant : Obligations.EveryStepKeepsTheInvariant := by
  intro s t hinv h
  obtain ⟨-, h0, hmem⟩ := inv_iff.mp hinv
  have h0' : t.ZeroReg := step_keeps_zeroReg h0 h
  obtain ⟨-, rfl⟩ | ⟨-, -, rfl⟩ | ⟨-, m, hm, rfl⟩ := step_next_cases h
  · exact inv_iff.mpr ⟨rfl, h0', hmem⟩
  · exact hinv
  · have hmem' : m.env.Canonical := exec_keeps_canonical (zeroReg_beforeExecute s) hm hmem
    have hpc : (afterExecute m).core.fl.pc.toNat % 4 = 0 := by
      rw [afterExecute_core_fl]
      exact nextPc_aligned m.core.fl.pc
    exact inv_iff.mpr ⟨hpc, h0', hmem'⟩

/-- Settles O24: WB and the install end by writing 0 to slot 0, and the restore gives back the file it started from. -/
theorem zeroRegisterReadsZero : Obligations.ZeroRegisterReadsZero := by
  refine ⟨fun s t h0 h => step_keeps_zeroReg h0 h, ?writeback, ?install, ?restore⟩
  case writeback =>
    intro nregs xlen iw pcw _ Desc c
    exact readReg_installPending_zero c.x c.ml.dest c.ml.result
  case install =>
    intro nregs xlen _ x d v
    exact readReg_installPending_zero x d v
  case restore =>
    intro nregs xlen iw pcw _ Desc c h0
    rw [beforeHandler, restorePending_installPending h0]
    exact h0

/-- Settles O26: DF, EX and RD each copy `common`, and DF overwrites `ML.common` before EX, without WB having
read it. -/
theorem commonPcTravelsUnchanged : Obligations.CommonPcTravelsUnchanged := by
  constructor
  · intro s t hr h
    obtain ⟨m, -, hframe, rfl⟩ := step_running_inv hr h
    simp [hframe.flCommon, hframe.elCommon, hframe.ml]
  · intro s k hr
    calc step { s with core := { s.core with ml := { s.core.ml with common := k } } }
      _ = runCycle { s with core := { s.core with ml := { s.core.ml with common := k } } } := step_running hr
      _ = runCycle s := runCycle_congr rfl rfl
      _ = step s := (step_running hr).symm

/-- Settles O27: the frame of EX, which holds for every handler. -/
theorem executeTouchesOnlyItsOutputs : Obligations.ExecuteTouchesOnlyItsOutputs := by
  intro i s t h0 h
  have hframe := exec_frame h0 h
  exact ⟨hframe.x, hframe.dl, hframe.ml, hframe.flCommon, hframe.flIw, hframe.elCommon, hframe.table, hframe.rst⟩

/-- The invariant speaks of the CORE and the two memories only. -/
theorem inv_of_core_eq (hinv : s.Inv) (hcore : t.core = s.core) (hmem : t.env.Canonical) : t.Inv := by
  obtain ⟨hpc, h0, -⟩ := inv_iff.mp hinv
  exact inv_iff.mpr ⟨hcore ▸ hpc, show readReg t.core.x 0 = 0 from hcore ▸ h0, hmem⟩

/-- Settles O54: no host operation names the CORE, and the two that write a memory write one byte inside it. -/
theorem hostWritesLeaveTheCoreAlone : Obligations.HostWritesLeaveTheCoreAlone := by
  intro s v a b n hinv
  have ⟨_, _, himem, hdmem⟩ := hinv
  simp only [List.forall_mem_cons, List.not_mem_nil, false_imp_iff, implies_true, and_true]
  refine ⟨⟨rfl, ?rst⟩, ⟨rfl, ?halt⟩, ⟨rfl, ?imem⟩, ⟨rfl, ?dmem⟩, ⟨rfl, ?other⟩⟩
  case rst | halt | other => exact inv_of_core_eq hinv rfl ⟨himem, hdmem⟩
  case imem => exact inv_of_core_eq hinv rfl ⟨Mem.write_wf himem a.isLt, hdmem⟩
  case dmem => exact inv_of_core_eq hinv rfl ⟨himem, Mem.write_wf hdmem a.isLt⟩

theorem zeroReg_reset : State.reset.ZeroReg := show readReg State.reset.core.x 0 = 0 by decide

/-- Settles O13: the latches of `State.reset` are written out as R180 leaves them. -/
theorem resetStateIsTheInitializedPipeline : Obligations.ResetStateIsTheInitializedPipeline :=
  ⟨rfl, rfl, rfl, rfl, zeroReg_reset⟩

/-- Settles O14: `FL.pc` is 0, the memories have nothing listed, and `DL` holds `ZERO` beside the zero word. -/
theorem resetMeetsTheInvariant : Obligations.ResetMeetsTheInvariant :=
  ⟨inv_iff.mpr ⟨rfl, zeroReg_reset, rfl, rfl⟩, .inr ⟨rfl, rfl⟩⟩

end Sys2Proof.Machine

namespace Sys2Proof.Machine

/-! The four bytes of a big-endian word, each at its bit position (R52, R192): the appends of `readWord` are passed from
the low end up, until the byte is one side of the append that is left. -/

section readWordBytes

variable (m : Mem) (a : Nat)

theorem readWord_bits31_24 : (readWord m a).extractLsb' 24 8 = m.read a := by
  rw [readWord, BitVec.extractLsb'_append_eq_of_le (by decide), BitVec.extractLsb'_append_eq_of_le (by decide)]
  exact BitVec.extractLsb'_append_eq_left

theorem readWord_bits23_16 : (readWord m a).extractLsb' 16 8 = m.read (a + 1) := by
  rw [readWord, BitVec.extractLsb'_append_eq_of_le (by decide), BitVec.extractLsb'_append_eq_of_le (by decide)]
  exact BitVec.extractLsb'_append_eq_right

theorem readWord_bits15_8 : (readWord m a).extractLsb' 8 8 = m.read (a + 2) := by
  rw [readWord, BitVec.extractLsb'_append_eq_of_le (by decide)]
  exact BitVec.extractLsb'_append_eq_right

theorem readWord_bits7_0 : (readWord m a).extractLsb' 0 8 = m.read (a + 3) :=
  BitVec.extractLsb'_append_eq_right

end readWordBytes

/-- Settles O7: at `IW = 32` the fetched word is `readWord`, with its four bytes at their places. -/
theorem fetchedWordIsBigEndian : Obligations.FetchedWordIsBigEndian := by
  intro imem a
  rw [fetchWord_word]
  exact ⟨readWord_bits31_24 imem a, readWord_bits23_16 imem a, readWord_bits15_8 imem a, readWord_bits7_0 imem a⟩

/-- RD and IF leave the environment alone (R110, R100). -/
@[simp] theorem afterExecute_env (s : State) : (afterExecute s).env = s.env := rfl

/-- Settles O32: RD and IF run on the state EX leaves, so IF reads the memory after the handler at the address after the
redirect; EX has left `FL.iw`, which RD moves, as it was. -/
theorem fetchSeesTheCyclesOwnWrites : Obligations.FetchSeesTheCyclesOwnWrites := by
  intro s t m hr hm h
  have hiw : m.core.fl.iw = s.core.fl.iw := (exec_frame (zeroReg_beforeExecute s) hm).flIw
  obtain rfl : afterExecute m = t := by simpa [step_running_next hr hm] using h
  simp [hiw]

end Sys2Proof.Machine

namespace Sys2Proof

/-! A word put together again from its own fields (R71, R190), each field next to the one below it. -/

section ownFields

variable {op funct : BitVec 6} {w : Word}

theorem encodeR_ownFields (hop : opOf w = op) (hfunct : functOf w = funct) :
    encodeR op (rsOf w) (rtOf w) (rdOf w) (saOf w) funct = w := by
  subst hop hfunct
  show w.extractLsb' 26 6 ++ w.extractLsb' 21 5 ++ w.extractLsb' 16 5 ++ w.extractLsb' 11 5 ++ w.extractLsb' 6 5 ++
    w.extractLsb' 0 6 = w
  simp only [BitVec.extractLsb'_append_extractLsb'_eq_extractLsb', BitVec.extractLsb'_eq_self]

theorem encodeI_ownFields (hop : opOf w = op) : encodeI op (rsOf w) (rtOf w) (immOf w) = w := by
  subst hop
  show w.extractLsb' 26 6 ++ w.extractLsb' 21 5 ++ w.extractLsb' 16 5 ++ w.extractLsb' 0 16 = w
  simp only [BitVec.extractLsb'_append_extractLsb'_eq_extractLsb', BitVec.extractLsb'_eq_self]

theorem codeWord_ownFields (hop : opOf w = op) (hfunct : functOf w = funct) : op ++ codeOf w ++ funct = w := by
  subst hop hfunct
  simp only [opOf, codeOf, functOf, BitVec.extractLsb'_append_extractLsb'_eq_extractLsb', BitVec.extractLsb'_eq_self]

theorem jumpWord_ownFields (hop : opOf w = op) : op ++ targetOf w = w := by
  subst hop
  simp only [opOf, targetOf, BitVec.extractLsb'_append_extractLsb'_eq_extractLsb', BitVec.extractLsb'_eq_self]

end ownFields

/-! The source fields of a word, read from its code or from its target (R122). -/

section sourceFieldsOfWord

variable (w : Word)

theorem rsOf_codeOf : ((codeOf w).extractLsb' 15 5).toFin = rsOf w := by
  rw [← rsOf_codeWord (opOf w) (functOf w), codeWord_ownFields rfl rfl]

theorem rtOf_codeOf : ((codeOf w).extractLsb' 10 5).toFin = rtOf w := by
  rw [← rtOf_codeWord (opOf w) (functOf w), codeWord_ownFields rfl rfl]

theorem rsOf_targetOf : ((targetOf w).extractLsb' 21 5).toFin = rsOf w := by
  rw [← rsOf_jumpWord (opOf w), jumpWord_ownFields rfl]

theorem rtOf_targetOf : ((targetOf w).extractLsb' 16 5).toFin = rtOf w := by
  rw [← rtOf_jumpWord (opOf w), jumpWord_ownFields rfl]

end sourceFieldsOfWord

/-! The instruction that a descriptor and a word stand for, and the one the fixture reads in the word (R191). -/

section instrOfWord

variable {d : Descriptor} {w : Word}

@[simp] theorem descriptorOf_instrOf : descriptorOf (instrOf d w) = d := by
  cases d <;> rfl

/-- `instrOf` answers DISPATCH for rowless descriptors only, so `ILLEGAL` alone asks something of the word. -/
theorem instrOf_wellFormed (h : d = .illegal → fixtureDescriptor w = .illegal) : (instrOf d w).wellFormed = true := by
  cases d with
  | illegal => exact decide_eq_true (h rfl)
  | _ => rfl

theorem specialDescriptor_not_rowless (funct : BitVec 6) : (specialDescriptor funct).rowless = false := by
  fun_cases specialDescriptor funct <;> rfl

/-- The fixture decoder answers neither `ZERO` nor an external descriptor (R191). -/
theorem fixtureDescriptor_not_rowless (w : Word) : (fixtureDescriptor w).rowless = false := by
  fun_cases fixtureDescriptor w with
  | case1 => exact specialDescriptor_not_rowless (functOf w)
  | _ => rfl

/-- Where the op field is 0, the function field chooses the instruction, and its encoding puts both back. -/
theorem encode_instrOf_specialDescriptor (hop : opOf w = 0x00) :
    encode (instrOf (specialDescriptor (functOf w)) w) = w := by
  fun_cases specialDescriptor (functOf w) with
  | case2 _ hfunct => exact codeWord_ownFields hop hfunct
  | case1 hfunct | case3 _ _ hfunct | case4 _ _ _ hfunct | case5 _ _ _ _ hfunct => exact encodeR_ownFields hop hfunct
  | case6 => rfl

/-- Each row of the fixture's table encodes with the op field by which the decoder chose it. -/
theorem encode_decode (w : Word) : encode (decode w) = w := by
  unfold decode
  fun_cases fixtureDescriptor w with
  | case1 hop => exact encode_instrOf_specialDescriptor hop
  | case2 _ hop => exact jumpWord_ownFields hop
  | case3 _ _ hop | case4 _ _ _ hop | case5 _ _ _ _ hop | case6 _ _ _ _ _ hop | case7 _ _ _ _ _ _ hop =>
    exact encodeI_ownFields hop
  | case8 => rfl

end instrOfWord

/-- Settles O4: the encoding puts the word's own fields back, and the fixture's descriptor has a row. -/
theorem encodeOfDecodeIsTheWord : Obligations.EncodeOfDecodeIsTheWord := by
  intro w
  have hrow : (decode w).hasFixtureRow = true := by
    simp [decode, Instr.hasFixtureRow, fixtureDescriptor_not_rowless]
  exact ⟨encode_decode w, instrOf_wellFormed id, hrow⟩

end Sys2Proof

namespace Sys2Proof.Machine

/-- Settles O21: each arm runs its descriptor's handler by definition; only `break` and `j` name the source fields
otherwise than by `rsOf` and `rtOf`, as bits of the code and of the target. -/
theorem everyWordIsDispatched : Obligations.EveryWordIsDispatched := by
  intro d w s
  cases d with
  | brk => simp only [instrOf, exec, execBreak, execDispatch, handlerFor, rsOf_codeOf, rtOf_codeOf]
  | j => simp only [instrOf, exec, execJ, execDispatch, handlerFor, rsOf_targetOf, rtOf_targetOf]
  | _ => rfl

end Sys2Proof.Machine

namespace Sys2Proof.Machine

/-! The fetch address in a window of any size (R101, R102). -/

section fetchAddress

variable {nregs xlen iw pcw : Nat} {Desc : Type}

@[simp] theorem instructionFetch_fl (imem : Mem) (c : CoreState nregs xlen iw pcw Desc) :
    (instructionFetch imem c).fl = ⟨⟨c.fl.pc⟩, nextPc c.fl.pc, fetchWord iw imem c.fl.pc.toNat⟩ := rfl

/-- The window holds whole words, so the sum is aligned when the address is, and the mask keeps it. -/
theorem nextPc_toNat (hp : 2 ≤ pcw) {a : BitVec pcw} (ha : a.toNat % 4 = 0) :
    (nextPc a).toNat = (a.toNat + 4) % 2 ^ pcw := by
  have hwindow : 4 ∣ 2 ^ pcw := Nat.pow_dvd_pow 2 hp
  have haligned : (a.toNat + 4) % 2 ^ pcw % 4 = 0 := by
    rw [Nat.mod_mod_of_dvd _ hwindow]
    omega
  rw [nextPc, and_pcMask_toNat hp, BitVec.toNat_add, BitVec.toNat_ofNat, Nat.add_mod_mod]
  omega

theorem nextPc_toNat_aligned (hp : 2 ≤ pcw) (a : BitVec pcw) : (nextPc a).toNat % 4 = 0 := by
  rw [nextPc, and_pcMask_toNat hp]
  omega

/-- At the last word of the window the sum is the window's size. -/
theorem nextPc_top (hp : 2 ≤ pcw) {a : BitVec pcw} (ha : a.toNat = 2 ^ pcw - 4) : nextPc a = 0 := by
  have hwindow : 4 ∣ 2 ^ pcw := Nat.pow_dvd_pow 2 hp
  have hpos : 0 < 2 ^ pcw := Nat.two_pow_pos pcw
  have hsize : a.toNat + 4 = 2 ^ pcw := by omega
  apply BitVec.eq_of_toNat_eq
  rw [nextPc_toNat hp (by omega), hsize, Nat.mod_self]
  rfl

theorem pcMask_default : pcMask 12 = 0xFFC#12 := rfl

end fetchAddress

/-- Settles O5: IF leaves `nextPc`, whose mask changes nothing in the sum of an aligned address and 4. -/
theorem nextFetchAddressIsPlusFourInTheWindow : Obligations.NextFetchAddressIsPlusFourInTheWindow := by
  refine ⟨?_, pcMask_default⟩
  intro nregs xlen iw pcw Desc c imem hp ha
  exact ⟨rfl, nextPc_toNat hp ha, nextPc_toNat_aligned hp c.fl.pc⟩

/-- Settles O6: the next address of the last word is 0, and it is what the next IF reads at. -/
theorem fetchWrapsAtTheTopOfTheWindow : Obligations.FetchWrapsAtTheTopOfTheWindow := by
  intro nregs xlen iw pcw Desc c imem imem' hp htop
  have hwrap : nextPc c.fl.pc = 0 := nextPc_top hp htop
  simp [hwrap]

/-! The redirect of EX (R131), for every handler. -/

section redirect

variable {i : Instr} {s t : State}

/-- When EX is done, the only latches that differ are `EL` and what the redirect sets (R129, R131, R132). -/
theorem applyOutputs_done {nregs xlen iw pcw : Nat} {Desc Ext : Type} {out : HandlerOut xlen Ext}
    {c c' : CoreState nregs xlen iw pcw Desc} {e e' : Env Ext} (h : applyOutputs out c e = .done c' e') :
    ∃ l, c' = applyRedirect out.redirect { c with el := l } ∧ e' = out.env := by
  fun_cases applyOutputs out c e with
  | case1 _ hf => simp [applyOutputs, hf] at h
  | case2 hf hw =>
    simp only [applyOutputs, hf, hw, ExResult.done.injEq] at h
    exact ⟨c.el, h.1.symm, h.2.symm⟩
  | case3 hf d v hw hd =>
    simp only [applyOutputs, hf, hw, hd, dif_pos, ExResult.done.injEq] at h
    exact ⟨_, h.1.symm, h.2.symm⟩
  | case4 hf d v hw hd => simp [applyOutputs, hf, hw, hd] at h

theorem finish_next {r : ExResult 32 32 32 12 Descriptor ExtState} (h : s.finish r = .next t) :
    ∃ c e, r = .done c e ∧ t = s.put c e := by
  cases r with
  | done c e => exact ⟨c, e, rfl, by simpa [State.finish] using h.symm⟩
  | stop r => cases r <;> simp [State.finish] at h

theorem runHandler_flPc_of_no_redirect {rs rt : RegIdx} {h : MachineHandler} (hh : ∀ inp, (h inp).redirect = none)
    (hs : runHandler rs rt h s = .next t) : t.core.fl.pc = s.core.fl.pc := by
  obtain ⟨c, e, hdone, rfl⟩ := finish_next hs
  obtain ⟨l, rfl, -⟩ := applyOutputs_done hdone
  rw [hh]
  rfl

/-- The handlers of the fixture that answer a redirect are those of `j`, `beq` and `bne` (R193 to R205). -/
theorem handlerFor_redirect {d : Descriptor} (hd : d.mayRedirect = false) (w : Word) (inp : Input) :
    (handlerFor d w inp).redirect = none := by
  cases d with
  | zero | sll | brk | addu | subu | or | addiu | illegal => rfl
  | lw => simp only [handlerFor, handleLw]; split <;> rfl
  | sw => simp only [handlerFor, handleSw]; split <;> rfl
  | j | beq | bne | external => simp [Descriptor.mayRedirect] at hd

theorem exec_flPc_of_not_mayRedirect (hd : (descriptorOf i).mayRedirect = false) (h : exec i s = .next t) :
    t.core.fl.pc = s.core.fl.pc := by
  rw [exec_eq_runHandler] at h
  exact runHandler_flPc_of_no_redirect (handlerFor_redirect hd _) h

end redirect

/-! What a running step leaves in `DL` and `FL` (R100, R110), and the table, which it does not change. -/

section latches

variable {s t : State}

theorem descriptorOf_current : descriptorOf s.current = s.core.dl.desc := descriptorOf_instrOf

theorem step_running_dl (hr : s.Running) (h : step s = .next t) :
    t.core.dl = ⟨s.core.fl.common, descriptorFor s.table s.core.fl.iw, s.core.fl.iw⟩ := by
  obtain ⟨m, -, hframe, rfl⟩ := step_running_inv hr h
  simp [hframe.flCommon, hframe.flIw, hframe.table]

theorem step_running_flIw (hr : s.Running) (h : step s = .next t) :
    t.core.fl.iw = readWord t.env.imem t.core.fl.common.pc.toNat := by
  obtain ⟨m, -, -, rfl⟩ := step_running_inv hr h
  simp

/-- IF reads at the address the step before left, unless EX redirects (R131). -/
theorem step_running_fetches_sequentially (hr : s.Running) (h : step s = .next t)
    (hd : s.core.dl.desc.mayRedirect = false) : t.core.fl.common.pc = s.core.fl.pc := by
  obtain ⟨m, hm, -, rfl⟩ := step_running_inv hr h
  rw [← descriptorOf_current] at hd
  simpa using exec_flPc_of_not_mayRedirect hd hm

theorem step_running_table (hr : s.Running) (h : step s = .next t) : t.table = s.table := by
  obtain ⟨m, -, hframe, rfl⟩ := step_running_inv hr h
  exact hframe.table

/-- EX leaves a multiple of 4 in `FL.pc`: the old address, which is one in a running state, or a masked target. -/
theorem ExecFrame.flPc_aligned {m : State} (hr : s.Running) (hframe : ExecFrame (beforeExecute s) m) :
    m.core.fl.pc.toNat % 4 = 0 := by
  obtain ⟨-, -, haligned, -⟩ := hr
  obtain hpc | ⟨a, hpc⟩ := hframe.flPc
  · rwa [hpc]
  · rw [hpc]
    exact maskTarget_aligned a

end latches

/-- The byte decoder on the four bytes of a word in memory (R52). -/
theorem decodeBytes_readWord (m : Mem) (a : Nat) (rest : List Byte) :
    decodeBytes ([m.read a, m.read (a + 1), m.read (a + 2), m.read (a + 3)] ++ rest) =
      .ok (decode (readWord m a), rest) := rfl

/-- Settles O18: the second step's RD moves the word that the first step's IF read into `DL`, with the fixture's
descriptor, and `DL` is what the third step executes. -/
theorem fetchedBytesExecuteTwoCyclesLater : Obligations.FetchedBytesExecuteTwoCyclesLater := by
  intro s t u i rest htable hs ht hu hst htu hbytes
  have hdl := step_running_dl ht htu
  have hiw := step_running_flIw hs hst
  have htt : t.table = .fixture := (step_running_table hs hst).trans htable
  rw [decodeBytes_readWord, ← hiw, Except.ok.injEq, Prod.mk.injEq] at hbytes
  obtain ⟨rfl, -⟩ := hbytes
  have hcurrent : u.current = decode t.core.fl.iw := by
    rw [State.current, hdl, htt]
    rfl
  refine ⟨by rw [hdl], ?_⟩
  rw [step_running hu, ← hcurrent]
  rfl

/-- Settles O20: DF runs before EX and RD and IF after it, and EX changes no latch but `EL` and, by a redirect, the
address that IF reads at. -/
theorem runningStepMovesEveryLatch : Obligations.RunningStepMovesEveryLatch := by
  intro s t hr h
  have hdl := step_running_dl hr h
  have hiw := step_running_flIw hr h
  have hsequential := step_running_fetches_sequentially hr h
  obtain ⟨m, -, hframe, rfl⟩ := step_running_inv hr h
  refine ⟨?ml, hdl, hframe.elCommon, ?aligned, ?next, hiw, hsequential⟩
  case ml => exact hframe.ml
  case aligned => exact hframe.flPc_aligned hr
  case next => rw [afterExecute_core_fl, nextPc, pcMask_default]; rfl

/-- Settles O23: a reset edge writes the reset contents into `DL`, a halted call leaves `DL` alone, and RD of a running
call asks the decoder that is plugged in. -/
theorem everyStepKeepsDecoded : Obligations.EveryStepKeepsDecoded := by
  intro s t hdecoded h
  obtain ⟨-, rfl⟩ | ⟨-, -, rfl⟩ | ⟨hr, -⟩ := step_next_cases h
  · exact .inr ⟨rfl, rfl⟩
  · exact hdecoded
  · refine .inl ?_
    rw [step_running_dl hr h, step_running_table hr h]

end Sys2Proof.Machine

namespace Sys2Proof.Machine

/-! EX over an arbitrary handler and for every row of R9 (R120, R127): what the handler is given, and its outputs
applied. -/

section executeStage

variable {nregs xlen iw pcw : Nat} {Desc Ext : Type} {c : CoreState nregs xlen iw pcw Desc} {e : Env Ext}

/-- The CORE with a bubble in `EL`: the address of the instruction, destination 0, and the stale result (R121, R128). -/
def CoreState.bubbled [NeZero nregs] (c : CoreState nregs xlen iw pcw Desc) : CoreState nregs xlen iw pcw Desc :=
  { c with el := { common := c.dl.common, dest := 0, result := c.el.result } }

/-- The restore gives back a file whose slot 0 is zero, so what is left of R120's steps 1 to 5 is the bubble. -/
theorem beforeHandler_eq_bubbled [NeZero nregs] (h0 : readReg c.x 0 = 0) : beforeHandler c = c.bubbled := by
  simp only [beforeHandler, CoreState.bubbled, restorePending_installPending h0]

theorem executeStage_eq [NeZero nregs] (h0 : readReg c.x 0 = 0) (rs rt : Fin nregs) (h : Handler nregs xlen pcw Ext) :
    executeStage rs rt h c e = applyOutputs (h (handlerInput rs rt c e)) c.bubbled e := by
  rw [executeStage, beforeHandler_eq_bubbled h0]

/-- The next fetch address after `out.redirect` (R131). -/
def redirectedPc (r : Option Nat) (p : BitVec pcw) : BitVec pcw := r.elim p (maskTarget pcw)

theorem applyRedirect_eq (r : Option Nat) (c : CoreState nregs xlen iw pcw Desc) :
    applyRedirect r c = { c with fl := { c.fl with pc := redirectedPc r c.fl.pc } } := by
  cases r <;> rfl

/-! The four forms of a handler's outputs (R129, R131, R132, R223, R224, R228). -/

section outputs

variable {out : HandlerOut xlen Ext}

theorem applyOutputs_of_fault {r : HandlerFault} (hf : out.fault = some r) :
    applyOutputs out c e = .stop (.handler r) c e := by
  rw [applyOutputs, hf]

theorem applyOutputs_of_no_write (hf : out.fault = none) (hw : out.write = none) :
    applyOutputs out c e = .done (applyRedirect out.redirect c) out.env := by
  rw [applyOutputs, hf, hw]

theorem applyOutputs_of_write {d : Nat} {v : BitVec xlen} (hf : out.fault = none) (hw : out.write = some (d, v))
    (hd : d < nregs) :
    applyOutputs out c e =
      .done (applyRedirect out.redirect { c with el := { c.el with dest := ⟨d, hd⟩, result := v } }) out.env := by
  simp only [applyOutputs, hf, hw, dif_pos hd]

theorem applyOutputs_of_dest_out_of_range {d : Nat} {v : BitVec xlen} (hf : out.fault = none)
    (hw : out.write = some (d, v)) (hd : nregs ≤ d) : applyOutputs out c e = .stop (.destOutOfRange d) c e := by
  simp only [applyOutputs, hf, hw, dif_neg hd.not_gt]

end outputs

end executeStage

/-- Settles O9: the reads see the pending slot installed and slot 0 zero, and the restore undoes the install. -/
theorem operandsAreForwarded : Obligations.OperandsAreForwarded := by
  intro nregs xlen iw pcw _ Desc Ext c e rs rt h0
  have hx : (beforeHandler c).x = c.x := by rw [beforeHandler_eq_bubbled h0, CoreState.bubbled]
  exact ⟨readReg_installPending .., readReg_installPending .., hx, hx⟩

/-- Settles O10: the handler's outputs are applied to the CORE with a bubble in `EL`, one clause for each of their
forms. -/
theorem handlerOutputsAreApplied : Obligations.HandlerOutputsAreApplied := by
  intro nregs xlen iw pcw _ Desc Ext h c e rs rt h0 out bubble pc'
  have hpc : redirectedPc out.redirect c.fl.pc = pc' := by
    simp only [pc']
    cases out.redirect <;> rfl
  rw [executeStage_eq h0]
  refine ⟨fun r hf => ?fault, fun hf hw => ?noWrite, fun d v hf hw hd => ?outOfRange, fun d v hf hw => ?write⟩
  case fault => exact applyOutputs_of_fault hf
  case noWrite => rw [applyOutputs_of_no_write hf hw, applyRedirect_eq, ← hpc]; rfl
  case outOfRange => exact applyOutputs_of_dest_out_of_range hf hw hd
  case write => rw [applyOutputs_of_write hf hw d.isLt, applyRedirect_eq, ← hpc]; rfl

/-- The window holds whole words, so masking a target into it drops the target's last two bits (R131). -/
theorem maskTarget_toNat {pcw : Nat} (hp : 2 ≤ pcw) (t : Nat) : (maskTarget pcw t).toNat = t % 2 ^ pcw - t % 4 := by
  have hlow : t % 2 ^ pcw % 4 = t % 4 := Nat.mod_mod_of_dvd t (Nat.pow_dvd_pow 2 hp)
  rw [maskTarget, and_pcMask_toNat hp, BitVec.toNat_ofNat]
  omega

/-- Settles O11: RD moves the word and its address, which the redirect leaves alone, and IF reads at the masked
target. -/
theorem redirectIsFetchedInTheSameCycle : Obligations.RedirectIsFetchedInTheSameCycle := by
  intro nregs xlen iw pcw Desc decoder c imem t hp
  have htarget := maskTarget_toNat hp t
  exact ⟨htarget, congrArg (fetchWord iw imem) htarget, rfl, rfl, rfl⟩

/-- The handler of an external descriptor is a handler like any other, though its answer is a free value (R127, log
entry 11). -/
theorem exec_dispatch_external {s : State} (h0 : s.ZeroReg) (bits : BitVec 64) (w : Word) :
    exec (.dispatch (.external bits) w) s =
      s.finish (applyOutputs (handleExternal bits w (s.input (rsOf w) (rtOf w))) (s.setEl s.bubbleEl).core s.env) :=
  runHandler_eq h0

/-- Settles O48: an external handler gets the contract's inputs, and its answer is applied as any handler's is. -/
theorem externalDispatchAppliesTheHandlersAnswer : Obligations.ExternalDispatchAppliesTheHandlersAnswer := by
  intro bits w s h0 f e redirected
  have hput (l : ExecLatch 32 32 12) :
      s.put (applyRedirect f.redirect (s.setEl l).core) e = { redirected.setEl l with env := e } := by
    simp only [redirected]
    cases f.redirect <;> rfl
  have hfault : (handleExternal bits w (s.input (rsOf w) (rtOf w))).fault = f.fault.map .external := rfl
  rw [exec_dispatch_external h0]
  cases hf : f.fault with
  | some r =>
    rw [hf, Option.map_some] at hfault
    rw [applyOutputs_of_fault hfault]
    rfl
  | none =>
    rw [hf, Option.map_none] at hfault
    cases hw : f.write with
    | none =>
      rw [applyOutputs_of_no_write hfault hw]
      exact congrArg _ (hput s.bubbleEl)
    | some p =>
      obtain ⟨d, v⟩ := p
      by_cases hd : d < 32
      · simp only [applyOutputs_of_write hfault hw hd, dif_pos hd]
        exact congrArg _ (hput (s.resultEl ⟨d, hd⟩ v))
      · simp only [applyOutputs_of_dest_out_of_range hfault hw (Nat.le_of_not_lt hd), dif_neg hd]
        rfl

end Sys2Proof.Machine

namespace Sys2Proof.Machine

/-! WB, and the register file across a step (R160 to R162). -/

section commit

variable {nregs xlen iw pcw : Nat} {Desc : Type} [NeZero nregs]

/-- The durable commit of WB, slot by slot (R160). -/
theorem readReg_writeback (c : CoreState nregs xlen iw pcw Desc) (i : Fin nregs) :
    readReg (writeback c).x i = if i = 0 then 0 else if i = c.ml.dest then c.ml.result else readReg c.x i :=
  readReg_installPending c.x c.ml.dest c.ml.result i

/-- A commit to slot 0 is discarded (R162): the re-zeroing gives slot 0 the value it had. -/
theorem writeback_x_of_dest_zero {c : CoreState nregs xlen iw pcw Desc} (h0 : readReg c.x 0 = 0) (hd : c.ml.dest = 0) :
    (writeback c).x = c.x := by
  apply regFile_ext
  intro i
  rw [readReg_writeback, hd]
  by_cases hi : i = 0
  · rw [if_pos hi, hi, h0]
  · rw [if_neg hi, if_neg hi]

end commit

/-- Settles O8: WB is the write of the pending slot followed by the write of 0 to slot 0, and touches no latch. -/
theorem writebackCommitsThePendingResult : Obligations.WritebackCommitsThePendingResult := by
  intro nregs xlen iw pcw _ Desc c
  exact ⟨readReg_writeback c, writeback_x_of_dest_zero, rfl, rfl, rfl, rfl⟩

/-- After WB, no stage of a running step changes the register file: EX restores it, and DF, RD and IF do not touch
it (R133, R161). -/
theorem step_running_x {s t : State} (hr : s.Running) (h : step s = .next t) : t.core.x = (writeback s.core).x := by
  obtain ⟨m, -, hframe, rfl⟩ := step_running_inv hr h
  rw [afterExecute_core_x, hframe.x]
  rfl

/-- Settles O25: a halted call answers the state it was given, and a running one leaves the register file as WB
does. -/
theorem onlyWritebackChangesRegisters : Obligations.OnlyWritebackChangesRegisters := by
  intro s t hrst h
  obtain ⟨hreset, -⟩ | ⟨-, hhalt, rfl⟩ | ⟨hr, -⟩ := step_next_cases h
  · simp [hrst] at hreset
  · exact ⟨fun _ => rfl, fun hrun => by simp [hhalt] at hrun⟩
  · have ⟨_, hrun, _⟩ := hr
    refine ⟨fun hhalt => ?halted, fun _ i => ?running⟩
    case halted => simp [hrun] at hhalt
    case running => rw [step_running_x hr h, readReg_writeback]

end Sys2Proof.Machine

namespace Sys2Proof.Machine

/-! The calls that run no stage (R171, R180, R225). -/

section idleCalls

variable {s : State}

theorem step_invalid (hrst : s.rst = false) (hrun : s.env.halt = false) (hinvalid : s.core.valid = false) :
    step s = .refused .invalidState := by
  simp [step, hrst, hrun, hinvalid]

/-- A first step that answers a next state leaves the rest of the run to it. -/
theorem run_succ_of_next {M : Host.Core} {s t : M.State} (h : M.step s = .next t) (n : Nat) :
    M.run (n + 1) s = M.run n t := by
  rw [Host.Core.run, h]

theorem run_halted (hrst : s.rst = false) (hhalt : s.env.halt = true) (n : Nat) :
    Sys2Proof.core.run n s = .next s := by
  induction n with
  | zero => rfl
  | succ n ih => exact (run_succ_of_next (M := Sys2Proof.core) (step_halted hrst hhalt) n).trans ih

end idleCalls

/-- Settles O12: the operation of R180 is the record with its latches written out, and `step` looks at `rst` first. -/
theorem initializeZeroFillsTheLatches : Obligations.InitializeZeroFillsTheLatches := by
  refine ⟨?latches, fun s hrst => step_reset hrst⟩
  intro nregs xlen iw pcw _ Desc desc0 c
  rfl

/-- Settles O15, by induction on the number of calls: a halted call answers the state it was given. -/
theorem haltedCallsChangeNothing : Obligations.HaltedCallsChangeNothing :=
  fun _ n hrst hhalt => run_halted hrst hhalt n

/-- Settles O17: a running call is `runCycle`, which executes the instruction of `DL` between `beforeExecute` and
`afterExecute`. -/
theorem stepRunsTheDecodedInstruction : Obligations.StepRunsTheDecodedInstruction := by
  intro s i hr hi
  subst hi
  rw [step_running hr]
  rfl

/-! `advance-one-cycle` by its three tests (R170, R225, R228). -/

section advanceOneCycle

variable {nregs xlen iw pcw : Nat} {Desc Ext : Type} [NeZero nregs] {rsField rtField : BitVec iw → Fin nregs}
  {decoder : BitVec iw → Desc} {handler : Desc → BitVec iw → Handler nregs xlen pcw Ext}
  {c : CoreState nregs xlen iw pcw Desc} {e : Env Ext}

theorem advanceOneCycle_halted (hhalt : e.halt = true) :
    advanceOneCycle rsField rtField decoder handler c e = .ok c e := by
  rw [advanceOneCycle, if_pos hhalt]

theorem advanceOneCycle_invalid (hrun : e.halt = false) (hinvalid : c.valid = false) :
    advanceOneCycle rsField rtField decoder handler c e = .invalidState := by
  simp [advanceOneCycle, hrun, hinvalid]

/-- The end of a call whose EX has answered: RD and IF when it is done, the fault when it stops (R170, R223). -/
def ExResult.endCycle (decoder : BitVec iw → Desc) (r : ExResult nregs xlen iw pcw Desc Ext) :
    CycleResult nregs xlen iw pcw Desc Ext :=
  match r with
  | .stop r c e => .fault r c e
  | .done c e => .ok (instructionFetch e.imem (registerFetch decoder c)) e

theorem advanceOneCycle_running (hrun : e.halt = false) (hvalid : c.valid = true) :
    advanceOneCycle rsField rtField decoder handler c e =
      (executeStage (rsField c.dl.iw) (rtField c.dl.iw) (handler c.dl.desc c.dl.iw)
        (dataFetch (writeback c)) e).endCycle decoder := by
  simp only [advanceOneCycle, hrun, hvalid, if_true, Bool.false_eq_true, if_false]
  rfl

end advanceOneCycle

/-- EX of the instruction in `DL` is the generic EX stage with the fields and the handler of `DL` (R76, R122). -/
theorem exec_current (s : State) :
    exec s.current (beforeExecute s) =
      (beforeExecute s).finish
        (executeStage (rsOf s.core.dl.iw) (rtOf s.core.dl.iw) (handlerFor s.core.dl.desc s.core.dl.iw)
          (dataFetch (writeback s.core)) s.env) :=
  everyWordIsDispatched s.core.dl.desc s.core.dl.iw (beforeExecute s)

/-- Settles O19: the two make the same tests in the same order, and in a running call both run the EX stage with the
fields and the handler of `DL`, then RD and IF unless it stops. -/
theorem stepIsAdvanceOneCycle : Obligations.StepIsAdvanceOneCycle := by
  intro s hrst
  cases hhalt : s.env.halt with
  | true => rw [step_halted hrst hhalt, advanceOneCycle_halted hhalt]
  | false =>
    cases hvalid : s.core.valid with
    | false => rw [step_invalid hrst hhalt hvalid, advanceOneCycle_invalid hhalt hvalid]
    | true =>
      have hr : s.Running := ⟨hrst, hhalt, valid_iff.mp hvalid⟩
      rw [step_running hr, runCycle, exec_current, advanceOneCycle_running hhalt hvalid]
      cases executeStage (rsOf s.core.dl.iw) (rtOf s.core.dl.iw) (handlerFor s.core.dl.desc s.core.dl.iw)
        (dataFetch (writeback s.core)) s.env with
      | done c e => rfl
      | stop r c e => cases r <;> rfl

/-! An instruction's way through the latches (R175, R176): what a running step takes from the one before it, and where
a result in `ML` or in `EL` is found. -/

section pipeline

variable {s t : State} {r : RegIdx}

theorem step_running_ml (hr : s.Running) (h : step s = .next t) :
    t.core.ml = ⟨s.core.el.common, s.core.el.dest, s.core.el.result⟩ := by
  obtain ⟨m, -, hframe, rfl⟩ := step_running_inv hr h
  exact hframe.ml

theorem step_running_elCommon (hr : s.Running) (h : step s = .next t) : t.core.el.common = s.core.dl.common := by
  obtain ⟨m, -, hframe, rfl⟩ := step_running_inv hr h
  exact hframe.elCommon

theorem step_running_fetch_aligned (hr : s.Running) (h : step s = .next t) :
    t.core.fl.common.pc.toNat % 4 = 0 := by
  obtain ⟨m, -, hframe, rfl⟩ := step_running_inv hr h
  exact hframe.flPc_aligned hr

theorem readReg_writeback_dest (hr0 : r ≠ 0) (hd : r = s.core.ml.dest) :
    readReg (writeback s.core).x r = s.core.ml.result := by
  rw [readReg_writeback, if_neg hr0, if_pos hd]

theorem readReg_writeback_other (h0 : s.ZeroReg) (hd : r ≠ s.core.ml.dest) :
    readReg (writeback s.core).x r = readReg s.core.x r := by
  rw [readReg_writeback, if_neg hd]
  split
  · next hr0 => rw [hr0, h0]
  · rfl

/-- DF has moved the result of the instruction before into `ML`, where the multiplexer takes it (R130, R150). -/
theorem operand_beforeExecute_el (hr0 : r ≠ 0) (hd : r = s.core.el.dest) :
    (beforeExecute s).operand r = s.core.el.result := by
  rw [State.operand, readOperand, if_neg hr0]
  exact if_pos hd

end pipeline

/-- Settles O28: IF, RD, EX and DF of the first four steps move the instruction from latch to latch, and WB of the fifth
is the one commit of the result that DF of the fourth left in `ML`. -/
theorem fetchedInstructionCommitsFourCyclesLater : Obligations.FetchedInstructionCommitsFourCyclesLater := by
  intro s0 s1 s2 s3 s4 s5 hr0 hr1 hr2 hr3 hr4 h0 h1 h2 h3 h4
  have hdl := step_running_dl hr1 h1
  have hel : s3.core.el.common = s1.core.fl.common := by rw [step_running_elCommon hr2 h2, hdl]
  have hml := step_running_ml hr3 h3
  have hdest : s4.core.ml.dest = s3.core.el.dest := by rw [hml]
  have hresult : s4.core.ml.result = s3.core.el.result := by rw [hml]
  have hcommit : ∀ r, r ≠ 0 → r = s3.core.el.dest → readReg (writeback s4.core).x r = s3.core.el.result :=
    fun r hr hd => (readReg_writeback_dest hr (hd.trans hdest.symm)).trans hresult
  refine ⟨step_running_fetch_aligned hr0 h0, step_running_flIw hr0 h0, by rw [hdl], by rw [hdl], ?desc, hel, hml, ?dest,
    ?others, fun r hr hd => operand_beforeExecute_el hr hd, hcommit⟩
  case desc => rw [hdl, step_running_table hr0 h0]
  case dest => rwa [step_running_x hr4 h4]
  case others =>
    have ⟨_, _, _, hzero⟩ := hr4
    intro r hd
    rw [step_running_x hr4 h4]
    exact readReg_writeback_other hzero (hdest ▸ hd)

/-- EX of `break` (R203): the halt bit set, and a bubble in `EL`. -/
theorem exec_brk {s : State} (h0 : s.ZeroReg) (code : BitVec 20) :
    exec (.brk code) s = .next ((s.setEl s.bubbleEl).setHalt true) := by
  rw [exec, execBreak]
  exact runHandler_updating (e := setHaltBit s.env true) h0 rfl

/-- A running step leaves a valid state, so the next call runs once the host has cleared halt (R173, R178). -/
theorem running_hostSetHalt {s t : State} (hr : s.Running) (h : step s = .next t) : (hostSetHalt t false).Running := by
  have ⟨hrst, _, _, h0⟩ := hr
  have h0' : t.ZeroReg := step_keeps_zeroReg h0 h
  obtain ⟨m, -, hframe, rfl⟩ := step_running_inv hr h
  exact ⟨hframe.rst.trans hrst, rfl, nextPc_aligned m.core.fl.pc, h0'⟩

/-- Settles O31: RD and IF run on the state in which `break` has set halt; from then on every call is a halted one, and
the first running call after the host's write commits the `ML` that DF of `break`'s own cycle left. -/
theorem breakFinishesItsCycleThenFreezes : Obligations.BreakFinishesItsCycleThenFreezes := by
  intro s code hr hbrk
  have ⟨hrst, _, haligned, _⟩ := hr
  have hstep := step_running_next hr (hbrk ▸ exec_brk (zeroReg_beforeExecute s) code)
  refine ⟨_, hstep, rfl, rfl, rfl, ?fetched, ?next, step_running_ml hr hstep, rfl, run_halted hrst rfl, ?resumed⟩
  case fetched => simp
  case next => simpa using nextPc_toNat (by omega) haligned
  case resumed =>
    intro u hu hd
    rw [step_running_x (running_hostSetHalt hr hstep) hu]
    exact readReg_writeback_dest hd rfl

end Sys2Proof.Machine

namespace Sys2Proof

/-! The fixture decoder on an encoded instruction (R191, R193 to R204). -/

/-- The encoding puts the op and function fields of the instruction's row in place, and the decoder chooses by them. -/
theorem fixtureDescriptor_encode {i : Instr} (hwf : i.wellFormed = true) (hrow : i.hasFixtureRow = true) :
    fixtureDescriptor (encode i) = descriptorOf i := by
  cases i with
  | dispatch d w =>
    have hrowless : d.rowless = true := hwf
    simp [Instr.hasFixtureRow, descriptorOf, hrowless] at hrow
  | illegal w => exact of_decide_eq_true hwf
  | sll | brk | addu | subu | or => simp [encode, descriptorOf, fixtureDescriptor, specialDescriptor]
  | j | beq | bne | addiu | lw | sw => simp [encode, descriptorOf, fixtureDescriptor]

/-- The encoding loses no operand, for every constructor. -/
theorem instrOf_encode {i : Instr} (hwf : i.wellFormed = true) : instrOf (descriptorOf i) (encode i) = i := by
  cases i with
  | dispatch d w => exact Laws.FieldsOfWord.dispatch d w hwf
  | sll rs rt rd sa => exact Laws.FieldsOfWord.sll rs rt rd sa hwf
  | brk code => exact Laws.FieldsOfWord.brk code hwf
  | addu rs rt rd sa => exact Laws.FieldsOfWord.addu rs rt rd sa hwf
  | subu rs rt rd sa => exact Laws.FieldsOfWord.subu rs rt rd sa hwf
  | or rs rt rd sa => exact Laws.FieldsOfWord.or rs rt rd sa hwf
  | j target => exact Laws.FieldsOfWord.j target hwf
  | beq rs rt imm => exact Laws.FieldsOfWord.beq rs rt imm hwf
  | bne rs rt imm => exact Laws.FieldsOfWord.bne rs rt imm hwf
  | addiu rs rt imm => exact Laws.FieldsOfWord.addiu rs rt imm hwf
  | lw rs rt imm => exact Laws.FieldsOfWord.lw rs rt imm hwf
  | sw rs rt imm => exact Laws.FieldsOfWord.sw rs rt imm hwf
  | illegal w => exact Laws.FieldsOfWord.illegal w hwf

theorem decode_encode {i : Instr} (hwf : i.wellFormed = true) (hrow : i.hasFixtureRow = true) :
    decode (encode i) = i := by
  rw [decode, fixtureDescriptor_encode hwf hrow, instrOf_encode hwf]

/-- The bytes of a word, most significant first, are put together to the word again (R52). -/
theorem decodeBytes_wordBytes (w : Word) (rest : List Byte) :
    decodeBytes (wordBytes w ++ rest) = .ok (decode w, rest) := by
  have hword : w.extractLsb' 24 8 ++ w.extractLsb' 16 8 ++ w.extractLsb' 8 8 ++ w.extractLsb' 0 8 = w := by
    simp only [BitVec.extractLsb'_append_extractLsb'_eq_extractLsb', BitVec.extractLsb'_eq_self]
  show Except.ok (decode _, rest) = _
  rw [hword]

/-- Settles O3: the decoder chooses the instruction's own descriptor from its word, and the fields read under it are the
instruction's operands. -/
theorem decodeOfEncodeIsTheInstruction : Obligations.DecodeOfEncodeIsTheInstruction := by
  intro i hwf hrow rest
  have hdecode := decode_encode hwf hrow
  exact ⟨hdecode, by rw [encodeBytes, decodeBytes_wordBytes, hdecode]⟩

/-! The fixture decoder's table (R191). -/

theorem fixtureDescriptor_ne_zero (w : Word) : fixtureDescriptor w ≠ .zero := by
  intro hzero
  simpa [hzero, Descriptor.rowless] using fixtureDescriptor_not_rowless w

/-- Settles O1: the decoder's branch fixes the op field, and for op 0 the function field, so it decides every row. -/
theorem fixtureDecoderFollowsItsTable : Obligations.FixtureDecoderFollowsItsTable := by
  intro w
  have hopField : w.extractLsb 31 26 = opOf w := rfl
  have hfunctField : w.extractLsb 5 0 = functOf w := rfl
  have hnop : decode 0x00000000#32 = .sll 0 0 0 0 := rfl
  rw [hopField, hfunctField]
  fun_cases fixtureDescriptor w with
  | case1 hop =>
    fun_cases specialDescriptor (functOf w) with
    | case1 | case2 | case3 | case4 | case5 => simp [*, resetDescriptor]
    | case6 => simp_all [resetDescriptor]
  | case2 | case3 | case4 | case5 | case6 | case7 => simp [*, resetDescriptor]
  | case8 => simp_all [resetDescriptor]

/-- Settles O2, by evaluating the decoder on each word. -/
theorem specWordsDecode : Obligations.SpecWordsDecode :=
  ⟨rfl, rfl, rfl, rfl, rfl, rfl, rfl, rfl, rfl, rfl, rfl, rfl⟩

end Sys2Proof

namespace Sys2Proof.Machine

/-! The operand forms of the fixture as numbers (R131, R192, R200, R202). -/

section operandForms

variable (addr : Word)

theorem wordAligned_iff : wordAligned addr = true ↔ addr.toNat % 4 = 0 := by
  rw [wordAligned, decide_eq_true_eq, ← BitVec.toNat_inj, BitVec.extractLsb'_toNat]
  rfl

theorem dmemAddr_eq : dmemAddr addr = addr.toNat % 4096 := by
  rw [dmemAddr, BitVec.toNat_and]
  exact Nat.and_two_pow_sub_one_eq_mod addr.toNat 12

theorem maskTarget_branchTarget (pc : BitVec 12) (imm : BitVec 16) :
    maskTarget 12 (branchTarget pc imm) =
      (pc.setWidth 32 + 4 + (imm.signExtend 32 <<< 2)).setWidth 12 &&& 0xFFC#12 := by
  rw [maskTarget, branchTarget, BitVec.ofNat_toNat, pcMask_default]

/-- The target's 28 bits fit in a word, and the window keeps the low ten bits of the target. -/
theorem maskTarget_jumpTarget (target : BitVec 26) :
    maskTarget 12 (jumpTarget target) = BitVec.ofNat 12 ((target.extractLsb 9 0).toNat * 4) := by
  have hshift : jumpTarget target = target.toNat * 4 := by
    rw [jumpTarget, BitVec.toNat_shiftLeft, BitVec.toNat_setWidth, Nat.shiftLeft_eq]
    omega
  have hlow : (target.extractLsb 9 0).toNat = target.toNat % 1024 := by simp
  apply BitVec.eq_of_toNat_eq
  rw [maskTarget_toNat (by omega), BitVec.toNat_ofNat, hshift, hlow]
  omega

end operandForms

/-! The data memory as words (R192). -/

section dataWords

variable {m : Mem} {size a : Nat}

theorem readWord_writeWord_same (h : m.wf size = true) (ha : a + 3 < size) (v : Word) :
    readWord (writeWord m a v) a = v := by
  have hread := read_writeWord h ha v
  calc readWord (writeWord m a v) a
    _ = v.extractLsb' 24 8 ++ v.extractLsb' 16 8 ++ v.extractLsb' 8 8 ++ v.extractLsb' 0 8 := by simp [readWord, hread]
    _ = v := by simp only [BitVec.extractLsb'_append_extractLsb'_eq_extractLsb', BitVec.extractLsb'_eq_self]

theorem read_writeWord_outside (h : m.wf size = true) (ha : a + 3 < size) (v : Word) {b : Nat}
    (hb : b < a ∨ a + 4 ≤ b) : (writeWord m a v).read b = m.read b := by
  rw [read_writeWord h ha, if_neg (by omega), if_neg (by omega), if_neg (by omega), if_neg (by omega)]

theorem readWord_writeWord_disjoint (h : m.wf size = true) (ha : a + 3 < size) (v : Word) {b : Nat}
    (hb : b + 4 ≤ a ∨ a + 4 ≤ b) : readWord (writeWord m a v) b = readWord m b := by
  simp only [readWord, read_writeWord_outside h ha v (show b < a ∨ a + 4 ≤ b by omega),
    read_writeWord_outside h ha v (show b + 1 < a ∨ a + 4 ≤ b + 1 by omega),
    read_writeWord_outside h ha v (show b + 2 < a ∨ a + 4 ≤ b + 2 by omega),
    read_writeWord_outside h ha v (show b + 3 < a ∨ a + 4 ≤ b + 3 by omega)]

end dataWords

/-! EX of each fixture instruction in a state whose slot 0 is zero: the outputs of its handler, applied (R193 to
R205). EX of `break` is `exec_brk`. -/

section execFixture

variable {s : State}

theorem exec_sll (h0 : s.ZeroReg) (rs rt rd : RegIdx) (sa : BitVec 5) :
    exec (.sll rs rt rd sa) s = .next (s.setEl (s.resultEl rd (s.operand rt <<< sa.toNat))) :=
  runHandler_writing h0 rfl

theorem exec_addu (h0 : s.ZeroReg) (rs rt rd : RegIdx) (sa : BitVec 5) :
    exec (.addu rs rt rd sa) s = .next (s.setEl (s.resultEl rd (s.operand rs + s.operand rt))) :=
  runHandler_writing h0 rfl

theorem exec_subu (h0 : s.ZeroReg) (rs rt rd : RegIdx) (sa : BitVec 5) :
    exec (.subu rs rt rd sa) s = .next (s.setEl (s.resultEl rd (s.operand rs - s.operand rt))) :=
  runHandler_writing h0 rfl

theorem exec_or (h0 : s.ZeroReg) (rs rt rd : RegIdx) (sa : BitVec 5) :
    exec (.or rs rt rd sa) s = .next (s.setEl (s.resultEl rd (s.operand rs ||| s.operand rt))) :=
  runHandler_writing h0 rfl

theorem exec_addiu (h0 : s.ZeroReg) (rs rt : RegIdx) (imm : BitVec 16) :
    exec (.addiu rs rt imm) s = .next (s.setEl (s.resultEl rt (addImm (s.operand rs) imm))) :=
  runHandler_writing h0 rfl

theorem exec_j (h0 : s.ZeroReg) (target : BitVec 26) :
    exec (.j target) s = .next ((s.setEl s.bubbleEl).setFlPc (maskTarget 12 (jumpTarget target))) :=
  runHandler_redirecting (h := handleJ target) h0 rfl

theorem exec_illegal (h0 : s.ZeroReg) (w : Word) : exec (.illegal w) s = .next (s.setEl s.bubbleEl) :=
  runHandler_nothing h0 rfl

theorem exec_dispatch_zero (h0 : s.ZeroReg) (w : Word) : exec (.dispatch .zero w) s = .next (s.setEl s.bubbleEl) :=
  runHandler_nothing h0 rfl

variable {rs rt : RegIdx} {imm : BitVec 16}

theorem exec_beq_taken (h0 : s.ZeroReg) (heq : s.operand rs = s.operand rt) :
    exec (.beq rs rt imm) s =
      .next ((s.setEl s.bubbleEl).setFlPc (maskTarget 12 (branchTarget s.core.dl.common.pc imm))) :=
  runHandler_redirecting h0 (if_pos heq)

theorem exec_beq_not_taken (h0 : s.ZeroReg) (hne : s.operand rs ≠ s.operand rt) :
    exec (.beq rs rt imm) s = .next (s.setEl s.bubbleEl) :=
  runHandler_nothing h0 (if_neg hne)

theorem exec_bne_taken (h0 : s.ZeroReg) (hne : s.operand rs ≠ s.operand rt) :
    exec (.bne rs rt imm) s =
      .next ((s.setEl s.bubbleEl).setFlPc (maskTarget 12 (branchTarget s.core.dl.common.pc imm))) :=
  runHandler_redirecting h0 (if_pos hne)

theorem exec_bne_not_taken (h0 : s.ZeroReg) (heq : s.operand rs = s.operand rt) :
    exec (.bne rs rt imm) s = .next (s.setEl s.bubbleEl) :=
  runHandler_nothing h0 (if_neg (not_not_intro heq))

theorem exec_lw_aligned (h0 : s.ZeroReg) (ha : wordAligned (addImm (s.operand rs) imm) = true) :
    exec (.lw rs rt imm) s = .next (s.setEl (s.resultEl rt (dload s.env (addImm (s.operand rs) imm)))) :=
  runHandler_writing h0 (if_pos ha)

theorem exec_lw_misaligned (h0 : s.ZeroReg) (ha : wordAligned (addImm (s.operand rs) imm) ≠ true) :
    exec (.lw rs rt imm) s = .fault (.handler .fixtureMisaligned (s.setEl s.bubbleEl)) :=
  runHandler_faulting h0 (if_neg ha)

theorem exec_sw_aligned (h0 : s.ZeroReg) (ha : wordAligned (addImm (s.operand rs) imm) = true) :
    exec (.sw rs rt imm) s = .next ((s.setEl s.bubbleEl).setDmem
      (writeWord s.env.ext.dmem (dmemAddr (addImm (s.operand rs) imm)) (s.operand rt))) :=
  runHandler_updating h0 (if_pos ha)

theorem exec_sw_misaligned (h0 : s.ZeroReg) (ha : wordAligned (addImm (s.operand rs) imm) ≠ true) :
    exec (.sw rs rt imm) s = .fault (.handler .fixtureMisaligned (s.setEl s.bubbleEl)) :=
  runHandler_faulting h0 (if_neg ha)

end execFixture

/-! The functional statements, one for each instruction. -/

/-- Settles O35: a shift by `sa` multiplies by `2 ^ sa` modulo `2^32`. -/
theorem sllWritesTheShiftedOperand : Obligations.SllWritesTheShiftedOperand := by
  intro rs rt rd sa s h0
  have hshift : s.operand rt <<< sa.toNat = BitVec.ofNat 32 ((s.operand rt).toNat * 2 ^ sa.toNat) := by
    rw [← Nat.shiftLeft_eq]
    rfl
  rw [exec_sll h0, hshift]

/-- Settles O36: the sum of two words is the sum of their values modulo `2^32`. -/
theorem adduWritesTheSum : Obligations.AdduWritesTheSum := by
  intro rs rt rd sa s h0
  rw [exec_addu h0, BitVec.ofNat_add, BitVec.ofNat_toNat, BitVec.ofNat_toNat, BitVec.setWidth_eq, BitVec.setWidth_eq]

/-- Settles O37: the difference of two words is the integer difference of their values modulo `2^32`. -/
theorem subuWritesTheDifference : Obligations.SubuWritesTheDifference := by
  intro rs rt rd sa s h0
  have hsub : s.operand rs - s.operand rt =
      BitVec.ofInt 32 ((s.operand rs).toNat - (s.operand rt).toNat) := by
    apply BitVec.eq_of_toNat_eq
    rw [BitVec.toNat_sub, BitVec.toNat_ofInt]
    omega
  rw [exec_subu h0, hsub]

/-- Settles O38: the value is `a ||| b`, whose bits are the disjunctions of the operands' bits. -/
theorem orWritesTheDisjunction : Obligations.OrWritesTheDisjunction := by
  intro rs rt rd sa s h0
  exact ⟨s.operand rs ||| s.operand rt, fun k => BitVec.getLsbD_or, exec_or h0 rs rt rd sa⟩

/-- Settles O39: the sign-extended immediate has the immediate's signed value. -/
theorem addiuWritesTheSumWithTheImmediate : Obligations.AddiuWritesTheSumWithTheImmediate := by
  intro rs rt imm s h0
  have hsum : addImm (s.operand rs) imm = BitVec.ofInt 32 ((s.operand rs).toNat + imm.toInt) := by
    simp [addImm, BitVec.ofInt_add, BitVec.signExtend]
  rw [exec_addiu h0, hsum]

/-- Settles O40: the two tests of alignment and the two forms of the address agree. -/
theorem lwLoadsTheBigEndianWord : Obligations.LwLoadsTheBigEndianWord := by
  intro rs rt imm s h0 addr a
  refine ⟨fun ha => ?aligned, fun ha => ?misaligned⟩
  case aligned =>
    have hplace : dmemAddr addr = a := dmemAddr_eq addr
    rw [exec_lw_aligned h0 ((wordAligned_iff addr).mpr ha), ← hplace]
    rfl
  case misaligned => exact exec_lw_misaligned h0 (mt (wordAligned_iff addr).mp ha)

/-- Settles O41: an aligned address leaves room for four bytes in the data memory, so the store keeps its canonical form
and each byte reads as the word's byte of its place or as before. -/
theorem swStoresTheBigEndianWord : Obligations.SwStoresTheBigEndianWord := by
  intro rs rt imm s h0 hmem addr a
  refine ⟨fun ha => ?aligned, fun ha => ?misaligned⟩
  case aligned =>
    have haligned : wordAligned addr = true := (wordAligned_iff addr).mpr ha
    have hplace : dmemAddr addr = a := dmemAddr_eq addr
    have hroom : a + 3 < 4096 := hplace ▸ dmemAddr_lt haligned
    have hread := read_writeWord hmem hroom (s.operand rt)
    refine ⟨writeWord s.env.ext.dmem a (s.operand rt), ?exec, writeWord_wf hmem hroom, ?b0, ?b1, ?b2, ?b3, ?others⟩
    case exec => rw [← hplace]; exact exec_sw_aligned h0 haligned
    case b0 | b1 | b2 | b3 => simp [hread, BitVec.extractLsb]
    case others => exact fun b hb => read_writeWord_outside hmem hroom (s.operand rt) hb
  case misaligned => exact exec_sw_misaligned h0 (mt (wordAligned_iff addr).mp ha)

/-- Settles O42: the masked target is the low 12 bits of the 32-bit sum, masked. -/
theorem beqRedirectsWhenEqual : Obligations.BeqRedirectsWhenEqual := by
  intro rs rt imm s h0
  refine ⟨fun heq => ?taken, exec_beq_not_taken h0⟩
  rw [exec_beq_taken h0 heq, maskTarget_branchTarget]

/-- Settles O43: the masked target is the low 12 bits of the 32-bit sum, masked. -/
theorem bneRedirectsWhenDifferent : Obligations.BneRedirectsWhenDifferent := by
  intro rs rt imm s h0
  refine ⟨fun hne => ?taken, exec_bne_not_taken h0⟩
  rw [exec_bne_taken h0 hne, maskTarget_branchTarget]

/-- Settles O44: the window keeps ten bits of the target. -/
theorem jRedirectsToTheTarget : Obligations.JRedirectsToTheTarget := by
  intro target s h0
  rw [exec_j h0, maskTarget_jumpTarget]

/-- Settles O45: the code is no input of the handler. -/
theorem breakSetsHalt : Obligations.BreakSetsHalt := fun code _ h0 => exec_brk h0 code

/-- Settles O46: the handler of `ILLEGAL` answers nothing. -/
theorem illegalDoesNothing : Obligations.IllegalDoesNothing := fun w _ h0 => exec_illegal h0 w

/-- Settles O47: the handler of `ZERO` answers nothing. That no external decoder answers `ZERO` is the model's choice
(log entry 21): its answers are descriptors of another constructor. -/
theorem dispatchOfZeroDoesNothing : Obligations.DispatchOfZeroDoesNothing := by
  refine ⟨fun w s h0 => exec_dispatch_zero h0 w, fun t w => ?_⟩
  cases t with
  | fixture => exact fixtureDescriptor_ne_zero w
  | external => exact Descriptor.noConfusion

end Sys2Proof.Machine

namespace Sys2Proof.Machine

/-- Settles O51: aligned places in the data memory are equal or do not overlap. -/
theorem loadAfterStore : Obligations.LoadAfterStore := by
  intro e addr addr' v hmem ha ha'
  have hroom : dmemAddr addr + 3 < 4096 := dmemAddr_lt ((wordAligned_iff addr).mpr ha)
  rw [← dmemAddr_eq, ← dmemAddr_eq]
  show readWord (writeWord e.ext.dmem (dmemAddr addr) v) (dmemAddr addr') = _
  split
  · next hsame => rw [hsame, readWord_writeWord_same hmem hroom]
  · next hother =>
    rw [dmemAddr_eq, dmemAddr_eq] at hother
    refine readWord_writeWord_disjoint hmem hroom v ?_
    rw [dmemAddr_eq, dmemAddr_eq]
    omega

/-! What the fixture's handlers can do to the environment and to `EL`, said once for all descriptors (R190, R193 to
R205). -/

/-- Under a fixture descriptor, the instruction memory and the rest of `Ext` stay, the data memory changes only by `sw`,
and halt only by `break`. -/
structure FixtureEffects (d : Descriptor) (e e' : Env ExtState) : Prop where
  imem  : e'.imem = e.imem
  other : e'.ext.other = e.ext.other
  dmem  : d ≠ .sw → e'.ext.dmem = e.ext.dmem
  halt  : d ≠ .brk → e'.halt = e.halt

theorem FixtureEffects.of_env_eq {d : Descriptor} {e e' : Env ExtState} (h : e' = e) : FixtureEffects d e e' := by
  subst h
  exact ⟨rfl, rfl, fun _ => rfl, fun _ => rfl⟩

theorem handleSw_effects (imm : BitVec 16) (inp : Input) : FixtureEffects .sw inp.env (handleSw imm inp).env := by
  unfold handleSw
  split
  · exact ⟨rfl, rfl, fun hsw => absurd rfl hsw, fun _ => rfl⟩
  · exact .of_env_eq rfl

theorem handlerFor_effects {d : Descriptor} (hd : d.ofFixture = true) (w : Word) (inp : Input) :
    FixtureEffects d inp.env (handlerFor d w inp).env := by
  cases d with
  | zero | sll | addu | subu | or | j | addiu | illegal => exact .of_env_eq rfl
  | beq => exact .of_env_eq (handleBeq_env _ _)
  | bne => exact .of_env_eq (handleBne_env _ _)
  | lw => exact .of_env_eq (handleLw_env _ _ _)
  | brk => exact ⟨rfl, rfl, fun _ => rfl, fun hbrk => absurd rfl hbrk⟩
  | sw => exact handleSw_effects _ _
  | external => simp [Descriptor.ofFixture] at hd

theorem handlerFor_write {d : Descriptor} (hd : d.mayWrite = false) (w : Word) (inp : Input) :
    (handlerFor d w inp).write = none := by
  cases d with
  | zero | brk | j | illegal => rfl
  | beq => simp only [handlerFor, handleBeq]; split <;> rfl
  | bne => simp only [handlerFor, handleBne]; split <;> rfl
  | sw => simp only [handlerFor, handleSw]; split <;> rfl
  | sll | addu | subu | or | addiu | lw | external => simp [Descriptor.mayWrite] at hd

section fixtureFrame

variable {i : Instr} {s t : State}

theorem exec_effects (h0 : s.ZeroReg) (hd : (descriptorOf i).ofFixture = true) (h : exec i s = .next t) :
    FixtureEffects (descriptorOf i) s.env t.env := by
  rw [exec_env h0 h]
  exact handlerFor_effects hd (encode i) (s.input (rsOf (encode i)) (rtOf (encode i)))

/-- A handler that answers no write leaves `EL` as the stage had it when the handler was called (R128). -/
theorem applyOutputs_el_of_no_write {nregs xlen iw pcw : Nat} {Desc Ext : Type} {out : HandlerOut xlen Ext}
    {c c' : CoreState nregs xlen iw pcw Desc} {e e' : Env Ext} (hw : out.write = none)
    (h : applyOutputs out c e = .done c' e') : c'.el = c.el := by
  cases hf : out.fault with
  | some r => simp [applyOutputs_of_fault hf] at h
  | none =>
    rw [applyOutputs_of_no_write hf hw, applyRedirect_eq, ExResult.done.injEq] at h
    rw [← h.1]

theorem exec_el_of_not_mayWrite (h0 : s.ZeroReg) (hd : (descriptorOf i).mayWrite = false) (h : exec i s = .next t) :
    t.core.el = s.bubbleEl := by
  rw [exec_eq_runHandler, runHandler_eq h0] at h
  obtain ⟨c, e, hdone, rfl⟩ := finish_next h
  exact applyOutputs_el_of_no_write (handlerFor_write hd _ _) hdone

end fixtureFrame

/-- Settles O49: the frame of EX, which holds for every handler, with what the fixture's handlers do to the environment,
to `EL` and to the next fetch address. -/
theorem nonStoringInstructionsFrame : Obligations.NonStoringInstructionsFrame := by
  intro i s t h0 hfixture hsw h
  have hframe := exec_frame h0 h
  have heffects := exec_effects h0 hfixture h
  refine ⟨?regs, ?dmem, ?imem, heffects.other, hframe.dl, hframe.ml, hframe.flCommon, hframe.flIw, hframe.table,
    hframe.rst, fun hd => exec_flPc_of_not_mayRedirect hd h, heffects.halt, fun hd => ?el⟩
  case regs => simp [hframe.x]
  case dmem => simp [heffects.dmem hsw]
  case imem => simp [heffects.imem]
  case el => simp [exec_el_of_not_mayWrite h0 hd h, State.bubbleEl]

/-- Settles O50: `sw` answers a next state only at an aligned address, and then it is the state with the word stored and
a bubble in `EL`. -/
theorem swFrame : Obligations.SwFrame := by
  intro rs rt imm s t h0 hmem h
  by_cases ha : wordAligned (addImm (s.operand rs) imm) = true
  · rw [exec_sw_aligned h0 ha, Host.Outcome.next.injEq] at h
    subst h
    refine ⟨?stored, fun _ => rfl, fun _ => rfl, rfl, rfl, rfl, rfl, rfl, rfl, rfl, rfl⟩
    rintro a rfl b hb
    exact read_writeWord_outside hmem (dmemAddr_lt ha) (s.operand rt) hb
  · rw [exec_sw_misaligned h0 ha] at h
    cases h

/-! Whole-machine rules with the fixture plugged in. -/

theorem ofFixture_of_not_rowless {d : Descriptor} (h : d.rowless = false) : d.ofFixture = true := by
  cases d with
  | zero | external => simp [Descriptor.rowless] at h
  | _ => rfl

section fixtureTable

variable {s t : State}

/-- `DL` holds a descriptor of the fixture: the decoder's answer, or `ZERO` from the reset (R191). -/
theorem ofFixture_of_decoded (htable : s.table = .fixture) (hdecoded : s.Decoded) :
    s.core.dl.desc.ofFixture = true := by
  obtain hdesc | ⟨hdesc, -⟩ := hdecoded
  · rw [hdesc, htable]
    exact ofFixture_of_not_rowless (fixtureDescriptor_not_rowless s.core.dl.iw)
  · rw [hdesc, htable]
    rfl

/-- No step is refused but a running call on a state that is not valid (R225): EX refuses nothing. -/
theorem step_not_refused (hvalid : s.core.valid = true) (r : Refusal) : step s ≠ .refused r := by
  cases hrst : s.rst with
  | true => simp [step_reset hrst]
  | false =>
    cases hhalt : s.env.halt with
    | true => simp [step_halted hrst hhalt]
    | false =>
      rw [step_running ⟨hrst, hhalt, valid_iff.mp hvalid⟩, runCycle]
      cases hexec : exec s.current (beforeExecute s) with
      | next | fault => simp
      | refused r' =>
        rw [exec_eq_runHandler] at hexec
        exact absurd hexec runHandler_not_refused

/-- The fixture faults nowhere but at a misaligned `lw` or `sw`, and then with a bubble in `EL` and nothing else
changed (R192, R198, R199, R223). -/
theorem exec_instrOf_fault {d : Descriptor} {w : Word} {f : Fault} (h0 : s.ZeroReg) (hd : d.ofFixture = true)
    (h : exec (instrOf d w) s = .fault f) :
    (d = .lw ∨ d = .sw) ∧ wordAligned (addImm (s.operand (rsOf w)) (immOf w)) ≠ true ∧
      f = .handler .fixtureMisaligned (s.setEl s.bubbleEl) := by
  cases d with
  | zero | sll | brk | addu | subu | or | j | addiu | illegal =>
    simp [instrOf, exec_dispatch_zero h0, exec_sll h0, exec_brk h0, exec_addu h0, exec_subu h0, exec_or h0, exec_j h0,
      exec_addiu h0, exec_illegal h0] at h
  | beq =>
    by_cases heq : s.operand (rsOf w) = s.operand (rtOf w)
    · simp [instrOf, exec_beq_taken h0 heq] at h
    · simp [instrOf, exec_beq_not_taken h0 heq] at h
  | bne =>
    by_cases heq : s.operand (rsOf w) = s.operand (rtOf w)
    · simp [instrOf, exec_bne_not_taken h0 heq] at h
    · simp [instrOf, exec_bne_taken h0 heq] at h
  | lw =>
    by_cases ha : wordAligned (addImm (s.operand (rsOf w)) (immOf w)) = true
    · simp [instrOf, exec_lw_aligned h0 ha] at h
    · rw [instrOf, exec_lw_misaligned h0 ha, Host.Outcome.fault.injEq] at h
      exact ⟨.inl rfl, ha, h.symm⟩
  | sw =>
    by_cases ha : wordAligned (addImm (s.operand (rsOf w)) (immOf w)) = true
    · simp [instrOf, exec_sw_aligned h0 ha] at h
    · rw [instrOf, exec_sw_misaligned h0 ha, Host.Outcome.fault.injEq] at h
      exact ⟨.inr rfl, ha, h.symm⟩
  | external => simp [Descriptor.ofFixture] at hd

end fixtureTable

/-- Settles O52: a reset edge and a halted call leave the environment alone, and in a running call only EX, which runs a
fixture handler, can change it. -/
theorem fixtureEffectsAreConfined : Obligations.FixtureEffectsAreConfined := by
  intro s t htable hdecoded h
  obtain ⟨-, rfl⟩ | ⟨-, -, rfl⟩ | ⟨hr, -⟩ := step_next_cases h
  · exact ⟨rfl, rfl, fun _ => rfl, fun _ => rfl, htable, rfl⟩
  · exact ⟨rfl, rfl, fun _ => rfl, fun _ => rfl, htable, rfl⟩
  · obtain ⟨m, hm, hframe, rfl⟩ := step_running_inv hr h
    have hfixture := ofFixture_of_decoded htable hdecoded
    rw [← descriptorOf_current] at hfixture ⊢
    have heffects := exec_effects (zeroReg_beforeExecute s) hfixture hm
    exact ⟨heffects.imem, heffects.other, heffects.dmem, heffects.halt, hframe.table.trans htable, hframe.rst⟩

/-- Settles O53: the invariants make the state valid and `DL` hold a fixture descriptor, whose handler faults only at a
misaligned access. -/
theorem fixtureFaultsOnlyOnMisalignedAccess : Obligations.FixtureFaultsOnlyOnMisalignedAccess := by
  intro s htable hinv hdecoded
  obtain ⟨hpc, h0, -⟩ := inv_iff.mp hinv
  refine ⟨step_not_refused (valid_iff.mpr ⟨hpc, h0⟩), fun f hf => ?fault⟩
  obtain ⟨-, hexec⟩ := step_fault_cases hf
  obtain ⟨hdesc, ha, rfl⟩ :=
    exec_instrOf_fault (zeroReg_beforeExecute s) (ofFixture_of_decoded htable hdecoded) hexec
  have hcurrent : s.current = .lw (rsOf s.core.dl.iw) (rtOf s.core.dl.iw) (immOf s.core.dl.iw) ∨
      s.current = .sw (rsOf s.core.dl.iw) (rtOf s.core.dl.iw) (immOf s.core.dl.iw) :=
    hdesc.imp (fun hlw => by rw [State.current, hlw, instrOf]) (fun hsw => by rw [State.current, hsw, instrOf])
  exact ⟨_, _, _, hcurrent, mt (wordAligned_iff _).mpr ha, _, rfl, rfl, rfl⟩

end Sys2Proof.Machine

namespace Sys2Proof.Machine

/-- The states that R225 refuses: a misaligned `FL.pc`, or a slot 0 that is not zero (R178). -/
theorem valid_eq_false_iff {s : State} :
    s.core.valid = false ↔ s.core.fl.pc.toNat % 4 ≠ 0 ∨ readReg s.core.x 0 ≠ 0 := by
  rw [← Bool.not_eq_true, valid_iff, Decidable.not_and_iff_not_or_not]
  rfl

/-- Settles O16: either condition makes the state invalid, and a running call tests validity before it runs a stage. -/
theorem invalidStateIsRefused : Obligations.InvalidStateIsRefused :=
  fun _ hrst hrun hinvalid => step_invalid hrst hrun (valid_eq_false_iff.mpr hinvalid)

end Sys2Proof.Machine

namespace Sys2Proof.Machine

/-! A result on its way from `EL` to the committed file (R255, R256): the file that EX sees after WB of its own cycle,
from one running step to the next, and along any number of them. -/

section newestValue

variable {s t : State} {r : RegIdx}

/-- Where the instruction before has written another register, the multiplexer reads the file that WB has just
written (R130). -/
theorem operand_beforeExecute_not_el (hr0 : r ≠ 0) (hd : s.core.el.dest ≠ r) :
    (beforeExecute s).operand r = readReg (beforeExecute s).core.x r := by
  rw [State.operand, readOperand, if_neg hr0]
  exact if_neg hd.symm

/-- DF has moved the result into `ML`, and the next cycle's WB commits it before EX (R150, R160). -/
theorem step_running_commits_el (hr : s.Running) (h : step s = .next t) (hr0 : r ≠ 0) (hd : s.core.el.dest = r) :
    readReg (beforeExecute t).core.x r = s.core.el.result := by
  have hml := step_running_ml hr h
  have hdest : r = t.core.ml.dest := by rw [hml, hd]
  calc readReg (writeback t.core).x r
    _ = t.core.ml.result := readReg_writeback_dest hr0 hdest
    _ = s.core.el.result := by rw [hml]

/-- A committed value stays until WB commits a younger result to the same register (R161). -/
theorem step_running_keeps_committed (hr : s.Running) (h : step s = .next t) (hd : s.core.el.dest ≠ r) :
    readReg (beforeExecute t).core.x r = readReg (beforeExecute s).core.x r := by
  have ⟨_, _, _, hzero⟩ := hr
  have hdest : r ≠ t.core.ml.dest := by
    rw [step_running_ml hr h]
    exact hd.symm
  calc readReg (writeback t.core).x r
    _ = readReg t.core.x r := readReg_writeback_other (step_keeps_zeroReg hzero h) hdest
    _ = readReg (beforeExecute s).core.x r := by rw [step_running_x hr h]; rfl

/-- Along running steps, the result of the first is in the committed file from the second step after its own on, as long
as no instruction between has written the register: by induction on the step. -/
theorem committed_along_steps {σ : Nat → State} {n : Nat}
    (hsteps : ∀ k, k < n → (σ k).Running ∧ step (σ k) = .next (σ (k + 1))) (hr0 : r ≠ 0)
    (hwriter : (σ 1).core.el.dest = r) (hbetween : ∀ k, 2 ≤ k → k < n → (σ k).core.el.dest ≠ r) {k : Nat} (hk : 2 ≤ k)
    (hkn : k ≤ n) : readReg (beforeExecute (σ k)).core.x r = (σ 1).core.el.result := by
  induction k, hk using Nat.le_induction with
  | base =>
    obtain ⟨hr, h⟩ := hsteps 1 hkn
    exact step_running_commits_el hr h hr0 hwriter
  | succ k hk ih =>
    obtain ⟨hr, h⟩ := hsteps k hkn
    rw [step_running_keeps_committed hr h (hbetween k hk hkn), ih (Nat.le_of_lt hkn)]

end newestValue

/-- Settles O29: the multiplexer takes the younger result from `ML`, where DF has just moved it, and otherwise reads the
file, in which WB has committed the older one. -/
theorem readAfterWriteSeesTheNewestValue : Obligations.ReadAfterWriteSeesTheNewestValue := by
  refine ⟨fun s t u r _ _ hr0 hd => ⟨operand_beforeExecute_el hr0 hd.symm, fun ht htu => ?two⟩,
    fun σ n r hn hsteps hr0 hwriter hbetween => ?any⟩
  case two =>
    have hcommitted := step_running_commits_el ht htu hr0 hd
    exact ⟨hcommitted, fun hother => (operand_beforeExecute_not_el hr0 hother).trans hcommitted,
      fun hyounger => operand_beforeExecute_el hr0 hyounger.symm⟩
  case any =>
    obtain rfl | hn2 := Nat.eq_or_lt_of_le hn
    · exact operand_beforeExecute_el hr0 hwriter.symm
    · rw [operand_beforeExecute_not_el hr0 (hbetween n hn2 le_rfl)]
      exact committed_along_steps hsteps hr0 hwriter (fun k h2 hkn => hbetween k h2 (Nat.le_of_lt hkn)) hn2 le_rfl

/-! A running step whose EX sets `EL` and the next fetch address and nothing else: every fixture instruction but `break`,
`sw` and a misaligned `lw` (R190). -/

section quietStep

variable {s t : State} {l : ExecLatch 32 32 12} {p : BitVec 12}

/-- The next call runs too, unless this one has set halt (R173, R178). -/
theorem running_of_step_running (hr : s.Running) (h : step s = .next t) (hhalt : t.env.halt = false) : t.Running := by
  obtain ⟨hrst, -, haligned, h0⟩ := running_hostSetHalt hr h
  exact ⟨hrst, hhalt, haligned, h0⟩

theorem step_running_of_exec_setFlPc (hr : s.Running)
    (hexec : exec s.current (beforeExecute s) = .next (((beforeExecute s).setEl l).setFlPc p)) :
    ∃ t, step s = .next t ∧ t.Running ∧ t.env = s.env ∧
      t.core.fl = ⟨⟨p⟩, nextPc p, readWord s.env.imem p.toNat⟩ := by
  have ⟨_, hhalt, _⟩ := hr
  have hstep := step_running_next hr hexec
  exact ⟨_, hstep, running_of_step_running hr hstep hhalt, rfl, afterExecute_core_fl _⟩

/-- Without a redirect, IF reads at the address the step before left. -/
theorem step_running_of_exec_setEl (hr : s.Running)
    (hexec : exec s.current (beforeExecute s) = .next ((beforeExecute s).setEl l)) :
    ∃ t, step s = .next t ∧ t.Running ∧ t.env = s.env ∧
      t.core.fl = ⟨⟨s.core.fl.pc⟩, nextPc s.core.fl.pc, readWord s.env.imem s.core.fl.pc.toNat⟩ :=
  step_running_of_exec_setFlPc (l := l) hr hexec

end quietStep

/-! A taken transfer (R200 to R202): EX leaves the target in the window as the next fetch address. -/

section takenTransfer

variable {s : State}

/-- The window keeps the low 12 bits of the target, and its last two bits are clear already (R202). -/
theorem maskTarget_jumpTarget_eq_ofNat (g : BitVec 26) :
    maskTarget 12 (jumpTarget g) = BitVec.ofNat 12 (4 * g.toNat) := by
  apply BitVec.eq_of_toNat_eq
  rw [maskTarget_jumpTarget, BitVec.toNat_ofNat, BitVec.toNat_ofNat, BitVec.extractLsb_toNat, Nat.shiftRight_zero]
  omega

theorem exec_current_j {g : BitVec 26} (hj : s.current = .j g) :
    exec s.current (beforeExecute s) =
      .next (((beforeExecute s).setEl (beforeExecute s).bubbleEl).setFlPc (BitVec.ofNat 12 (4 * g.toNat))) := by
  rw [hj, exec_j (zeroReg_beforeExecute s), maskTarget_jumpTarget_eq_ofNat]

theorem exec_current_taken_branch {rs rt : RegIdx} {imm : BitVec 16}
    (htaken : s.current = .beq rs rt imm ∧ (beforeExecute s).operand rs = (beforeExecute s).operand rt ∨
      s.current = .bne rs rt imm ∧ (beforeExecute s).operand rs ≠ (beforeExecute s).operand rt) :
    exec s.current (beforeExecute s) =
      .next (((beforeExecute s).setEl (beforeExecute s).bubbleEl).setFlPc
        ((s.core.dl.common.pc.setWidth 32 + 4 + (imm.signExtend 32 <<< 2)).setWidth 12 &&& 0xFFC#12)) := by
  have h0 := zeroReg_beforeExecute s
  rw [← maskTarget_branchTarget]
  obtain ⟨hbeq, heq⟩ | ⟨hbne, hne⟩ := htaken
  · rw [hbeq, exec_beq_taken h0 heq, beforeExecute_core_dl]
  · rw [hbne, exec_bne_taken h0 hne, beforeExecute_core_dl]

end takenTransfer

/-- Settles O30: RD moves the word fetched before the transfer, which EX leaves alone, IF of the same cycle reads at the
target, and the next cycle's RD moves the word read there. -/
theorem takenTransferHasOneDelaySlot : Obligations.TakenTransferHasOneDelaySlot := by
  intro s target hr htransfer
  have hexec : exec s.current (beforeExecute s) =
      .next (((beforeExecute s).setEl (beforeExecute s).bubbleEl).setFlPc target) := by
    obtain ⟨g, hj, rfl⟩ | ⟨rs, rt, imm, htaken, rfl⟩ := htransfer
    · exact exec_current_j hj
    · exact exec_current_taken_branch htaken
  obtain ⟨t, hstep, ht, -, hfl⟩ := step_running_of_exec_setFlPc hr hexec
  have hdl := step_running_dl hr hstep
  refine ⟨t, hstep, by rw [hfl], by rw [hfl], by rw [hdl], by rw [hdl], by rw [hdl], fun u hu => ?target⟩
  rw [step_running_dl ht hu, hfl]
  exact ⟨rfl, rfl⟩

/-- A running step commits nothing while `ML` holds a bubble (R162). -/
theorem step_running_x_of_ml_bubble {s t : State} (hr : s.Running) (h : step s = .next t)
    (hd : s.core.ml.dest = 0) : t.core.x = s.core.x := by
  have ⟨_, _, _, h0⟩ := hr
  rw [step_running_x hr h, writeback_x_of_dest_zero h0 hd]

/-- Settles O33: `ZERO` and `decode(0)`, which is `sll r0, r0, 0`, change nothing but `EL`, and `ML` holds a bubble in
both calls, so neither commits; each word fetched is decoded one call later. -/
theorem firstCyclesAfterReset : Obligations.FirstCyclesAfterReset := by
  intro s hs htable hcore
  have hfl0 : s.core.fl = ⟨⟨0⟩, 0, 0⟩ := congrArg CoreState.fl hcore
  have hdl0 : s.core.dl = ⟨⟨0⟩, .zero, 0⟩ := congrArg CoreState.dl hcore
  have hel0 : s.core.el = ⟨⟨0⟩, 0, 0⟩ := congrArg CoreState.el hcore
  have hml0 : s.core.ml = ⟨⟨0⟩, 0, 0⟩ := congrArg CoreState.ml hcore
  have hnext0 : nextPc (0 : BitVec 12) = 4 := rfl
  have hnext4 : nextPc (4 : BitVec 12) = 8 := rfl
  have hzero : s.current = .dispatch .zero 0 := by rw [State.current, hdl0]; rfl
  obtain ⟨t, hst, ht, htenv, htfl⟩ :=
    step_running_of_exec_setEl hs (hzero ▸ exec_dispatch_zero (zeroReg_beforeExecute s) 0)
  simp only [hfl0, hnext0] at htfl
  have httable : t.table = .fixture := (step_running_table hs hst).trans htable
  have hsll : t.current = .sll 0 0 0 0 := by rw [State.current, step_running_dl hs hst, hfl0, htable]; rfl
  obtain ⟨u, htu, hu, huenv, hufl⟩ :=
    step_running_of_exec_setEl ht (hsll ▸ exec_sll (zeroReg_beforeExecute t) 0 0 0 0)
  simp only [htfl, htenv, hnext4] at hufl
  have hudl := step_running_dl ht htu
  rw [htfl, httable] at hudl
  have htx : t.core.x = s.core.x := step_running_x_of_ml_bubble hs hst (by rw [hml0])
  have hux : u.core.x = t.core.x := step_running_x_of_ml_bubble ht htu (by rw [step_running_ml hs hst, hel0])
  refine ⟨t, u, hst, htu, hzero, hsll, htfl, hufl, hux.trans htx, huenv.trans htenv, hu, by rw [hudl], ?third⟩
  rw [State.current, hudl]
  rfl

/-! The boot procedure's two writes: a program as words in the instruction memory, and bytes in the data memory
(R254). -/

section loadWords

variable {m : Mem} {a : BitVec 12} {ws : List Word}

/-- A program that fits leaves every byte before and behind it alone. Where its last word is the window's, the next
address has wrapped to 0, and no word is left to write there. -/
theorem read_loadWords_outside (hm : m.wf 4096 = true) (ha : a.toNat % 4 = 0)
    (hfit : a.toNat + 4 * ws.length ≤ 4096) {b : Nat} (hb : b < a.toNat ∨ a.toNat + 4 * ws.length ≤ b) :
    (loadWords m a ws).read b = m.read b := by
  induction ws generalizing m a with
  | nil => rfl
  | cons w rest ih =>
    rw [List.length_cons] at hfit hb
    have hroom : a.toNat + 3 < 4096 := by omega
    have hnext := nextPc_toNat (by omega) ha
    calc (loadWords (writeWord m a.toNat w) (nextPc a) rest).read b
      _ = (writeWord m a.toNat w).read b :=
        ih (writeWord_wf hm hroom) (nextPc_aligned a) (by omega) (by omega)
      _ = m.read b := read_writeWord_outside hm hroom w (by omega)

theorem readWord_loadWords_outside (hm : m.wf 4096 = true) (ha : a.toNat % 4 = 0)
    (hfit : a.toNat + 4 * ws.length ≤ 4096) {b : Nat} (hb : b + 4 ≤ a.toNat ∨ a.toNat + 4 * ws.length ≤ b) :
    readWord (loadWords m a ws) b = readWord m b := by
  have hread (c : Nat) (hc : b ≤ c ∧ c < b + 4) : (loadWords m a ws).read c = m.read c :=
    read_loadWords_outside hm ha hfit (by omega)
  rw [readWord, hread b (by omega), hread (b + 1) (by omega), hread (b + 2) (by omega), hread (b + 3) (by omega),
    readWord]

/-- Each word of a program that fits is at its place: the words written after it lie behind it. -/
theorem readWord_loadWords (hm : m.wf 4096 = true) (ha : a.toNat % 4 = 0)
    (hfit : a.toNat + 4 * ws.length ≤ 4096) {k : Nat} (hk : k < ws.length) :
    readWord (loadWords m a ws) (a.toNat + 4 * k) = ws[k] := by
  induction ws generalizing m a k with
  | nil => exact absurd hk (Nat.not_lt_zero k)
  | cons w rest ih =>
    rw [List.length_cons] at hfit hk
    have hroom : a.toNat + 3 < 4096 := by omega
    have hnext := nextPc_toNat (by omega) ha
    have hm' : (writeWord m a.toNat w).wf 4096 = true := writeWord_wf hm hroom
    have haligned : (nextPc a).toNat % 4 = 0 := nextPc_aligned a
    have hfit' : (nextPc a).toNat + 4 * rest.length ≤ 4096 := by omega
    cases k with
    | zero =>
      calc readWord (loadWords (writeWord m a.toNat w) (nextPc a) rest) a.toNat
        _ = readWord (writeWord m a.toNat w) a.toNat := readWord_loadWords_outside hm' haligned hfit' (by omega)
        _ = w := readWord_writeWord_same hm hroom w
    | succ k =>
      have hplace : a.toNat + 4 * (k + 1) = (nextPc a).toNat + 4 * k := by omega
      rw [hplace]
      exact ih hm' haligned hfit' (by omega)

end loadWords

section writeBytes

variable {m : Mem} {ws : List (BitVec 12 × Byte)}

theorem read_writeBytes_outside (hm : m.wf 4096 = true) {a : Nat} (ha : ∀ p ∈ ws, p.1.toNat ≠ a) :
    (writeBytes m ws).read a = m.read a := by
  induction ws generalizing m with
  | nil => rfl
  | cons q rest ih =>
    obtain ⟨hq, hrest⟩ := List.forall_mem_cons.mp ha
    calc (writeBytes (m.write q.1.toNat q.2) rest).read a
      _ = (m.write q.1.toNat q.2).read a := ih (Mem.write_wf hm q.1.isLt) hrest
      _ = m.read a := by rw [Mem.read_write hm, if_neg hq.symm]

/-- At distinct addresses no byte is written over by a later one. -/
theorem read_writeBytes_mem (hm : m.wf 4096 = true) (hdistinct : (ws.map Prod.fst).Nodup) {p : BitVec 12 × Byte}
    (hp : p ∈ ws) : (writeBytes m ws).read p.1.toNat = p.2 := by
  induction ws generalizing m with
  | nil => exact absurd hp List.not_mem_nil
  | cons q rest ih =>
    rw [List.map_cons, List.nodup_cons] at hdistinct
    obtain ⟨hnew, hrest⟩ := hdistinct
    have hm' : (m.write q.1.toNat q.2).wf 4096 = true := Mem.write_wf hm q.1.isLt
    obtain rfl | hp := List.mem_cons.mp hp
    · have hlater : ∀ p' ∈ rest, p'.1.toNat ≠ p.1.toNat := fun p' hp' heq =>
        hnew (BitVec.eq_of_toNat_eq heq ▸ List.mem_map_of_mem hp')
      calc (writeBytes (m.write p.1.toNat p.2) rest).read p.1.toNat
        _ = (m.write p.1.toNat p.2).read p.1.toNat := read_writeBytes_outside hm' hlater
        _ = p.2 := by rw [Mem.read_write hm, if_pos rfl]
    · exact ih hm' hrest hp

end writeBytes

section boot

variable (s : State) (program : List Word) (data : List (BitVec 12 × Byte))

/-- Of the CORE, the boot procedure writes only the latches, by the reset operation (R36, R180, R254). -/
theorem boot_core : (boot s program data).core = initializePipeline (resetDescriptor s.table) s.core := rfl

theorem boot_imem : (boot s program data).env.imem = loadWords s.env.imem 0 program := rfl

theorem boot_dmem : (boot s program data).env.ext.dmem = writeBytes s.env.ext.dmem data := rfl

end boot

/-- Settles O34: the instruction memory is the old one with the program's words written from address 0, and the data
memory the old one with the bytes written; no other act of the procedure touches a memory. -/
theorem bootLoadsTheProgram : Obligations.BootLoadsTheProgram := by
  intro s program data himem hdmem hfit
  have hfit' : (0 : BitVec 12).toNat + 4 * program.length ≤ 4096 := by simpa using hfit
  rw [boot_imem, boot_dmem]
  refine ⟨boot_core s program data, rfl, rfl, fun k hk => ?word, fun a ha => ?behind,
    fun hdistinct p hp => read_writeBytes_mem hdmem hdistinct hp, fun a ha => read_writeBytes_outside hdmem ha⟩
  case word => simpa using readWord_loadWords himem rfl hfit' hk
  case behind => exact read_loadWords_outside himem rfl hfit' (.inr (by simpa using ha))

end Sys2Proof.Machine
